-- ==== Sys2Proof/Word.lean ====
section
/-! DEFINITION. The two bit-vector types of the machine (spec/00_scope.md R6, R8): every register and
memory value is an unsigned bit vector, and no rule reads one as signed. -/

namespace Sys2Proof

/-- `DATA_WIDTH` = 8 bits (R6): memory cells, `SP`, `A`, `X`, `Y`, opcodes. -/
abbrev Byte := BitVec 8

/-- `ADDR_WIDTH` = 16 bits (R6): addresses and `pc`. `+` on it is the spec's `+16`, on `Byte` its `+8` (R9). -/
abbrev Word := BitVec 16

end Sys2Proof
end

