-- ==== Sys2Proof/Machine/Bytes.lean ====
section
/-! DEFINITION. Byte order and zero extension (spec/00_scope.md R8, spec/20_memory.md R65): the one place
that says which byte of a word lies lower. -/

namespace Sys2Proof.Machine

/-- `v[7:0]`: the byte at the lower address (R65). -/
def loByte (v : Word) : Byte := v.extractLsb' 0 8

/-- `v[15:8]`: the byte at the next address, and the page of an address (R65, R23). -/
def hiByte (v : Word) : Byte := v.extractLsb' 8 8

/-- `hi ++ lo`, that is `hi*256 + lo` (R8). -/
def joinBytes (hi lo : Byte) : Word := hi ++ lo

/-- `zext_16(b)` (R8). -/
def zext16 (b : Byte) : Word := b.setWidth 16

end Sys2Proof.Machine
end

