-- ==== Sys2Proof/Syntax.lean ====
section
/-! DEFINITION. The instructions, one constructor per row of spec/opcode_table.json, and the parts a
dispatch-table row is made of (spec/30_encoding.md R91, R98-R100). -/

namespace Sys2Proof

/-- The destination registers of the load class (spec/42_load_register.md R200). -/
inductive Reg where
  | a | x | y
  deriving DecidableEq, Repr

/-- The nine addressing modes (spec/40_fetch_alu_addressing.md R141-R149). -/
inductive Mode where
  | immediate | zeroPage | zeroPageX | zeroPageY | absolute | absoluteX | absoluteY | indirectX | indirectY
  deriving DecidableEq, Repr

/-- The instruction formats with an operand (R91). `F1`, one byte, belongs to unknown opcodes only. -/
inductive Format where
  | f2 | f3
  deriving DecidableEq, Repr

/-- What a dispatch-table entry does (R99, spec/41_dispatch_execute.md R161, R162): a load of any
destination in any mode, or the subroutine call. -/
inductive Operation where
  | load (r : Reg) (m : Mode)
  | jsr
  deriving DecidableEq, Repr

/-- One row of a dispatch table (R99, R100). -/
structure Row where
  opcode     : Byte
  name       : String
  op         : Operation
  baseCycles : Nat
  pageCross  : Bool
  deriving DecidableEq, Repr

/-- An admitted instruction with its operand (R100): `imm` and `zp` are byte 1, `abs` is bytes 1 and 2
(R93-R95). The index register of a mode is no field (R96). -/
inductive Instr where
  | ldaIm   (imm : Byte)   -- LDA_IM,   R201
  | ldaZp   (zp : Byte)    -- LDA_ZP,   R202
  | ldaZpx  (zp : Byte)    -- LDA_ZPX,  R203
  | ldaAbs  (abs : Word)   -- LDA_ABS,  R204
  | ldaAbsx (abs : Word)   -- LDA_ABSX, R205
  | ldaAbsy (abs : Word)   -- LDA_ABSY, R206
  | ldaIndx (zp : Byte)    -- LDA_INDX, R207
  | ldaIndy (zp : Byte)    -- LDA_INDY, R208
  | ldxIm   (imm : Byte)   -- LDX_IM,   R209
  | ldxZp   (zp : Byte)    -- LDX_ZP,   R210
  | ldxZpy  (zp : Byte)    -- LDX_ZPY,  R211
  | ldxAbs  (abs : Word)   -- LDX_ABS,  R212
  | ldxAbsy (abs : Word)   -- LDX_ABSY, R213
  | ldyIm   (imm : Byte)   -- LDY_IM,   R214
  | ldyZp   (zp : Byte)    -- LDY_ZP,   R215
  | ldyZpx  (zp : Byte)    -- LDY_ZPX,  R216
  | ldyAbs  (abs : Word)   -- LDY_ABS,  R217
  | ldyAbsx (abs : Word)   -- LDY_ABSX, R218
  | jsr     (target : Word) -- JSR,     R230
  deriving DecidableEq, Repr

end Sys2Proof
end

