-- ==== Sys2Proof/WellFormed.lean ====
section
/-! DEFINITION. What is well formed. An instruction's operand fields have the very widths of the spec, so
every term of `Instr` is an instruction of the machine. A dispatch table, which the spec lets a model
take as a parameter (spec/41_dispatch_execute.md R162), can be ill formed, and is checked here. -/

namespace Sys2Proof

/-- Every `Instr` is well formed: `imm` and `zp` are 8 bits, `abs` is 16 (spec/30_encoding.md R93-R95),
each value admitted, so there is nothing to refuse. -/
def Instr.wellFormed (_ : Instr) : Bool := true

/-- The resolver's debits without a page cross (spec/40_fetch_alu_addressing.md R150). -/
def Mode.debits : Mode → Nat
  | .immediate => 1
  | .zeroPage  => 1
  | .zeroPageX => 2
  | .zeroPageY => 2
  | .absolute  => 2
  | .absoluteX => 2
  | .absoluteY => 2
  | .indirectX => 4
  | .indirectY => 3

/-- Whether a mode debits one more on a page cross (R150). -/
def Mode.canCross : Mode → Bool
  | .immediate => false
  | .zeroPage  => false
  | .zeroPageX => false
  | .zeroPageY => false
  | .absolute  => false
  | .absoluteX => true
  | .absoluteY => true
  | .indirectX => false
  | .indirectY => true

/-- The data read of a load, which Immediate does not make (spec/42_load_register.md R200). -/
def Mode.dataReads : Mode → Nat
  | .immediate => 0
  | .zeroPage  => 1
  | .zeroPageX => 1
  | .zeroPageY => 1
  | .absolute  => 1
  | .absoluteX => 1
  | .absoluteY => 1
  | .indirectX => 1
  | .indirectY => 1

/-- The base cost as the sum of the debits (spec/30_encoding.md R103): the opcode fetch, the mode's
debits and the data read of a load; or the debits of JSR (spec/43_subroutine_call.md R230). -/
def Operation.baseCost : Operation → Nat
  | .load _ m => 1 + m.debits + m.dataReads
  | .jsr      => 1 + 2 + 2 + 1

/-- Whether an operation can debit a page-cross cycle (R103). -/
def Operation.canCross : Operation → Bool
  | .load _ m => m.canCross
  | .jsr      => false

/-- A row's cost columns agree with the debits of its handler (R103). -/
def Row.wellFormed (r : Row) : Bool :=
  r.baseCycles == r.op.baseCost && r.pageCross == r.op.canCross

/-- The opcodes of a table are distinct, so that it is a function from the opcode (R101, R162). -/
def opcodesDistinct (t : List Row) : Bool := decide ((t.map Row.opcode).Nodup)

/-- A dispatch table a model may take (R162): distinct opcodes, and cost columns that agree with the
handlers (R103). -/
def tableWellFormed (t : List Row) : Bool := opcodesDistinct t && t.all Row.wellFormed

end Sys2Proof
end

