-- ==== Sys2Proof/Decode.lean ====
section
/-! DEFINITION. The dispatch table, the decoder and the encoder (spec/30_encoding.md, spec/41_dispatch_execute.md
R160). The opcode byte values stand once, in the rows below: the spec supplies them from general
knowledge (its decision D2, note G1; log entry 6). -/

namespace Sys2Proof

/-! ## The rows of `DISPATCH_TABLE` (R100): opcode, name, operation, base cycles, +1 on page cross -/

def ldaImRow : Row := ⟨0xA9, "LDA_IM", .load .a .immediate, 2, false⟩
def ldaZpRow : Row := ⟨0xA5, "LDA_ZP", .load .a .zeroPage, 3, false⟩
def ldaZpxRow : Row := ⟨0xB5, "LDA_ZPX", .load .a .zeroPageX, 4, false⟩
def ldaAbsRow : Row := ⟨0xAD, "LDA_ABS", .load .a .absolute, 4, false⟩
def ldaAbsxRow : Row := ⟨0xBD, "LDA_ABSX", .load .a .absoluteX, 4, true⟩
def ldaAbsyRow : Row := ⟨0xB9, "LDA_ABSY", .load .a .absoluteY, 4, true⟩
def ldaIndxRow : Row := ⟨0xA1, "LDA_INDX", .load .a .indirectX, 6, false⟩
def ldaIndyRow : Row := ⟨0xB1, "LDA_INDY", .load .a .indirectY, 5, true⟩
def ldxImRow : Row := ⟨0xA2, "LDX_IM", .load .x .immediate, 2, false⟩
def ldxZpRow : Row := ⟨0xA6, "LDX_ZP", .load .x .zeroPage, 3, false⟩
def ldxZpyRow : Row := ⟨0xB6, "LDX_ZPY", .load .x .zeroPageY, 4, false⟩
def ldxAbsRow : Row := ⟨0xAE, "LDX_ABS", .load .x .absolute, 4, false⟩
def ldxAbsyRow : Row := ⟨0xBE, "LDX_ABSY", .load .x .absoluteY, 4, true⟩
def ldyImRow : Row := ⟨0xA0, "LDY_IM", .load .y .immediate, 2, false⟩
def ldyZpRow : Row := ⟨0xA4, "LDY_ZP", .load .y .zeroPage, 3, false⟩
def ldyZpxRow : Row := ⟨0xB4, "LDY_ZPX", .load .y .zeroPageX, 4, false⟩
def ldyAbsRow : Row := ⟨0xAC, "LDY_ABS", .load .y .absolute, 4, false⟩
def ldyAbsxRow : Row := ⟨0xBC, "LDY_ABSX", .load .y .absoluteX, 4, true⟩
def jsrRow : Row := ⟨0x20, "JSR", .jsr, 6, false⟩

/-- `DISPATCH_TABLE` (R100), static and read-only (R104). -/
def dispatchTable : List Row :=
  [ldaImRow, ldaZpRow, ldaZpxRow, ldaAbsRow,
   ldaAbsxRow, ldaAbsyRow, ldaIndxRow, ldaIndyRow,
   ldxImRow, ldxZpRow, ldxZpyRow, ldxAbsRow,
   ldxAbsyRow, ldyImRow, ldyZpRow, ldyZpxRow,
   ldyAbsRow, ldyAbsxRow, jsrRow]

/-- `Decode(op)` over a table (R160): the entry of an opcode, all 8 bits matched (R102); `none` is `Unknown`. -/
def lookup (t : List Row) (op : Byte) : Option Row := t.find? fun r => r.opcode == op

/-- The format of an addressing mode's instructions (R91). -/
def Mode.format : Mode → Format
  | .immediate => .f2
  | .zeroPage  => .f2
  | .zeroPageX => .f2
  | .zeroPageY => .f2
  | .absolute  => .f3
  | .absoluteX => .f3
  | .absoluteY => .f3
  | .indirectX => .f2
  | .indirectY => .f2

/-- The format of an operation (R91). -/
def Operation.format : Operation → Format
  | .load _ m => m.format
  | .jsr      => .f3

/-- The length in bytes of a format (R91). -/
def Format.length : Format → Nat
  | .f2 => 2
  | .f3 => 3

/-- The length an opcode byte tells (R92): its format's, or 1 for an unknown opcode. -/
def opcodeLength (t : List Row) (op : Byte) : Nat :=
  match lookup t op with
  | some row => row.op.format.length
  | none     => 1

/-- The instruction of an operation with operand bytes 1 and 2 (R93-R95); `none` for the (destination,
mode) pairs R100 has no row for. -/
def assemble (op : Operation) (b1 b2 : Byte) : Option Instr :=
  match op with
  | .load .a .immediate => some (.ldaIm b1)
  | .load .a .zeroPage => some (.ldaZp b1)
  | .load .a .zeroPageX => some (.ldaZpx b1)
  | .load .a .absolute => some (.ldaAbs (Machine.joinBytes b2 b1))
  | .load .a .absoluteX => some (.ldaAbsx (Machine.joinBytes b2 b1))
  | .load .a .absoluteY => some (.ldaAbsy (Machine.joinBytes b2 b1))
  | .load .a .indirectX => some (.ldaIndx b1)
  | .load .a .indirectY => some (.ldaIndy b1)
  | .load .x .immediate => some (.ldxIm b1)
  | .load .x .zeroPage => some (.ldxZp b1)
  | .load .x .zeroPageY => some (.ldxZpy b1)
  | .load .x .absolute => some (.ldxAbs (Machine.joinBytes b2 b1))
  | .load .x .absoluteY => some (.ldxAbsy (Machine.joinBytes b2 b1))
  | .load .y .immediate => some (.ldyIm b1)
  | .load .y .zeroPage => some (.ldyZp b1)
  | .load .y .zeroPageX => some (.ldyZpx b1)
  | .load .y .absolute => some (.ldyAbs (Machine.joinBytes b2 b1))
  | .load .y .absoluteX => some (.ldyAbsx (Machine.joinBytes b2 b1))
  | .jsr => some (.jsr (Machine.joinBytes b2 b1))
  | .load .a .zeroPageY => none
  | .load .x .zeroPageX => none
  | .load .x .absoluteX => none
  | .load .x .indirectX => none
  | .load .x .indirectY => none
  | .load .y .zeroPageY => none
  | .load .y .absoluteY => none
  | .load .y .indirectX => none
  | .load .y .indirectY => none

/-- Why bytes are no instruction. -/
inductive Reject where
  /-- The byte has no dispatch-table entry: an unknown opcode (R105). -/
  | unknownOpcode (op : Byte)
  /-- The list ends before the operand bytes of `op`, or before any opcode (`none`): this can be said of a list, never of
  the machine, whose address space wraps (R91). -/
  | truncated (op : Option Byte)
  deriving DecidableEq, Repr

/-- What the decoder answers: an instruction with the bytes after it, or a rejection. -/
inductive Decoded where
  | instr (i : Instr) (rest : List Byte)
  | rejected (why : Reject)
  deriving DecidableEq, Repr

/-- Decoding a byte stream (R90, R107): total; the opcode byte alone tells the length (R92). -/
def decode : List Byte → Decoded
  | [] => .rejected (.truncated none)
  | op :: rest =>
    match lookup dispatchTable op with
    | none => .rejected (.unknownOpcode op)
    | some row =>
      if rest.length + 1 < row.op.format.length then .rejected (.truncated (some op))
      else
        match assemble row.op (rest.getD 0 0) (rest.getD 1 0) with
        | some i => .instr i (rest.drop (row.op.format.length - 1))
        | none   => .rejected (.unknownOpcode op)

/-- The instruction in the three bytes from the opcode's address on, the longest an instruction is (R91); `none` is an
unknown opcode. -/
def decodeWindow (b0 b1 b2 : Byte) : Option Instr :=
  match decode [b0, b1, b2] with
  | .instr i _  => some i
  | .rejected _ => none

/-- Byte `k` of an instruction whose `nbits` bits are `w`, byte 0 in bits 7..0; the bits from `nbits` on are 0. -/
def tableByte (nbits w k : Nat) : Byte := BitVec.ofNat 8 (w % 2 ^ nbits / 2 ^ (8 * k))

/-- The instruction the decoder reads from `w`, numbered as spec/opcode_table.json numbers bits. -/
def decodeTableWord (nbits w : Nat) : Option Instr :=
  decodeWindow (tableByte nbits w 0) (tableByte nbits w 1) (tableByte nbits w 2)

/-! ## The encoder -/

/-- The dispatch-table row of an instruction (R100). -/
def Instr.row : Instr → Row
  | .ldaIm _ => ldaImRow
  | .ldaZp _ => ldaZpRow
  | .ldaZpx _ => ldaZpxRow
  | .ldaAbs _ => ldaAbsRow
  | .ldaAbsx _ => ldaAbsxRow
  | .ldaAbsy _ => ldaAbsyRow
  | .ldaIndx _ => ldaIndxRow
  | .ldaIndy _ => ldaIndyRow
  | .ldxIm _ => ldxImRow
  | .ldxZp _ => ldxZpRow
  | .ldxZpy _ => ldxZpyRow
  | .ldxAbs _ => ldxAbsRow
  | .ldxAbsy _ => ldxAbsyRow
  | .ldyIm _ => ldyImRow
  | .ldyZp _ => ldyZpRow
  | .ldyZpx _ => ldyZpxRow
  | .ldyAbs _ => ldyAbsRow
  | .ldyAbsx _ => ldyAbsxRow
  | .jsr _ => jsrRow

/-- The operand bytes in stream order (R91, R97): an address low byte first (R95). -/
def Instr.operandBytes : Instr → List Byte
  | .ldaIm v => [v]
  | .ldaZp v => [v]
  | .ldaZpx v => [v]
  | .ldaAbs v => [Machine.loByte v, Machine.hiByte v]
  | .ldaAbsx v => [Machine.loByte v, Machine.hiByte v]
  | .ldaAbsy v => [Machine.loByte v, Machine.hiByte v]
  | .ldaIndx v => [v]
  | .ldaIndy v => [v]
  | .ldxIm v => [v]
  | .ldxZp v => [v]
  | .ldxZpy v => [v]
  | .ldxAbs v => [Machine.loByte v, Machine.hiByte v]
  | .ldxAbsy v => [Machine.loByte v, Machine.hiByte v]
  | .ldyIm v => [v]
  | .ldyZp v => [v]
  | .ldyZpx v => [v]
  | .ldyAbs v => [Machine.loByte v, Machine.hiByte v]
  | .ldyAbsx v => [Machine.loByte v, Machine.hiByte v]
  | .jsr v => [Machine.loByte v, Machine.hiByte v]

/-- The length in bytes of an instruction (R92). -/
def Instr.length (i : Instr) : Nat := i.row.op.format.length

/-- The bytes of an instruction (R90, R91). -/
def encode (i : Instr) : List Byte := i.row.opcode :: i.operandBytes

end Sys2Proof
end

