-- ==== Sys2Proof/Config.lean ====
section
/-! DEFINITION. The parameters of the hardware that no operation computes (spec/00_scope.md R6). The
spec leaves no value open (spec/93_implementation_defined.md, section 1), so no free value stands here. -/

namespace Sys2Proof.Config

/-- `RESET_PC` (R6, spec/70_reset_and_hazards.md R400): the address itself, no vector is read (R401). -/
def resetPc : Word := 0xFFFC

/-- `RESET_SP` (R6, the spec's decision D5): the low 8 bits of the stack page's base. -/
def resetSp : Byte := 0x00

/-- `MEM_SIZE` (R6): addresses 0x0000 to 0xFFFF. -/
def memSize : Nat := 65536

end Sys2Proof.Config
end

