-- ==== Sys2Proof/Machine/State.lean ====
section
/-! DEFINITION. The state of the machine, exactly what spec/10_state.md opens with: the register file, the
status flags, the cycle counter, the run state, the report log and the memory image; its reset value
(R52); the reasons to stop. -/

namespace Sys2Proof.Machine

/-- The memory image (spec/20_memory.md R60): (address, byte) pairs, addresses strictly rising, none 0x00.
An address that is not listed reads 0x00, what reset stores there (R52, R63; log entry 3). -/
abbrev Memory := List Host.Cell

/-- `run` and `remaining` together (R45, R47): the cycle counter "exists only while the machine is running",
so it is the argument of `running` (log entry 1). It is an unbounded integer and may end below zero (R45). -/
inductive RunState where
  | idle
  | running (remaining : Int)
  deriving DecidableEq, Repr

/-- Everything the spec gives the machine (10_state.md, opening; R50, R51: nothing else). -/
structure State where
  /-- Program counter (R35): at an instruction boundary, the address of the next opcode. -/
  pc      : Word
  /-- Stack pointer, an offset into the stack page (R38). -/
  sp      : Byte
  /-- Accumulator (R31). -/
  a       : Byte
  /-- Index register X (R32). -/
  x       : Byte
  /-- Index register Y (R33). -/
  y       : Byte
  /-- Carry (R43). -/
  flagC   : Bool
  /-- Zero (R41). -/
  flagZ   : Bool
  /-- Interrupt disable (R43). -/
  flagI   : Bool
  /-- Decimal mode (R43). -/
  flagD   : Bool
  /-- Break (R43). -/
  flagB   : Bool
  /-- Overflow (R43). -/
  flagV   : Bool
  /-- Negative (R42). -/
  flagN   : Bool
  /-- Run state and cycle counter (R45, R47). -/
  run     : RunState
  /-- Report log, oldest first (R48). -/
  reports : List (Word × Byte)
  /-- Memory image (20_memory.md R60). -/
  mem     : Memory
  deriving DecidableEq, Repr

/-- The machine right after its first reset (R52, spec/70_reset_and_hazards.md R400). The spec gives every
value but `reports`, which reset leaves alone and which nothing can have filled before (log entry 2). -/
def State.reset : State where
  pc      := Config.resetPc
  sp      := Config.resetSp
  a       := 0x00
  x       := 0x00
  y       := 0x00
  flagC   := false
  flagZ   := false
  flagI   := false
  flagD   := false
  flagB   := false
  flagV   := false
  flagN   := false
  run     := .idle
  reports := []
  mem     := []

/-- The faults of the machine: NONE. "There is no fault outcome of a CPU step" (spec/60_exceptions.md R301), and
there is no exception, trap or interrupt (R300, R302). Nothing raises one; that is the spec's own statement, so safe. -/
inductive Fault where
  deriving DecidableEq, Repr

/-- Why something has no meaning. No arm of `exec` and no `step` answers with any of these; the last two
are the host boundary's (spec/60_exceptions.md R301). -/
inductive Refusal where
  /-- Raised by an arm of `exec` whose instruction has no meaning yet: no arm, now. Safe. -/
  | notModelled (mnemonic : String)
  /-- Raised by the host's operations `execute` and `inspect` made before the first reset (spec/10_state.md R53).
  The spec's own refusal, safe. -/
  | beforeFirstReset
  /-- Raised by any host operation made while `run` is running: the host "has no move" then
  (spec/41_dispatch_execute.md R185). The spec's own refusal, safe. -/
  | hostWhileRunning
  deriving DecidableEq, Repr

end Sys2Proof.Machine
end

