-- ==== Sys2Proof/Machine/Ops.lean ====
section
/-! DEFINITION. The named operations over memory, registers and the cycle counter: the memory primitives
(spec/20_memory.md), the fetch unit and the arithmetic (spec/40_fetch_alu_addressing.md), and the one event of the
machine, the unknown-opcode report. There is no exception to take or to return from
(spec/60_exceptions.md R300, R304, R305), so no such operation stands here. -/

namespace Sys2Proof.Machine

/-! ## Memory -/

/-- What an address that is not listed reads as: 0x00, stored there by reset (spec/10_state.md R52). -/
def Memory.unlisted : Byte := 0x00

/-- `MemRead(addr, 1)` (20_memory.md R61): a pure lookup. -/
def Memory.read (m : Memory) (addr : Word) : Byte :=
  match m with
  | [] => Memory.unlisted
  | (k, b) :: rest => if k = addr.toNat then b else Memory.read rest addr

/-- Put a cell before the first cell of a higher address. -/
def Memory.insert (m : Memory) (k : Nat) (b : Byte) : Memory :=
  match m with
  | [] => [(k, b)]
  | (k', b') :: rest => if k < k' then (k, b) :: (k', b') :: rest else (k', b') :: Memory.insert rest k b

/-- `MemWrite(addr, 1, v)` (R62): the cell of `addr` is replaced, or dropped when `v` is what an unlisted
address reads as, so that equal memories are equal lists. -/
def Memory.write (m : Memory) (addr : Word) (v : Byte) : Memory :=
  let rest : Memory := m.filter fun c => c.1 != addr.toNat
  if v = Memory.unlisted then rest else Memory.insert rest addr.toNat v

/-- The canonical form from address `lo` on: rising addresses below 65,536, no cell 0x00. -/
def Memory.wfFrom (lo : Nat) (m : Memory) : Bool :=
  match m with
  | [] => true
  | (k, b) :: rest => decide (lo ≤ k) && decide (k < Config.memSize) && b != Memory.unlisted && Memory.wfFrom (k + 1) rest

/-- The canonical form of a memory image. -/
def Memory.wf (m : Memory) : Bool := Memory.wfFrom 0 m

/-! ## Registers and the cycle counter -/

/-- `x[r]` (spec/00_scope.md R10). -/
def State.getReg (s : State) (r : Reg) : Byte :=
  match r with
  | .a => s.a
  | .x => s.x
  | .y => s.y

/-- `x[r] <- v` (R10). -/
def State.setReg (s : State) (r : Reg) (v : Byte) : State :=
  match r with
  | .a => { s with a := v }
  | .x => { s with x := v }
  | .y => { s with y := v }

/-- `remaining <- remaining - n` (R10, spec/10_state.md R45): on unbounded integers. Between calls there is no
counter, and nothing is debited (log entry 1). -/
def RunState.debit (run : RunState) (n : Nat) : RunState :=
  match run with
  | .idle => .idle
  | .running remaining => .running (remaining - n)

/-- `debit(n)` (R10). -/
def State.debit (s : State) (n : Nat) : State := { s with run := s.run.debit n }

/-! ## Fetch unit (spec/40_fetch_alu_addressing.md, section 1) -/

/-- What fetching `n` bytes of the instruction stream does to the state (R120, R121): `pc` advances by `n` modulo
65536 and `n` cycles are debited. -/
def State.fetched (s : State) (n : Nat) : State := { s with pc := s.pc + BitVec.ofNat 16 n, run := s.run.debit n }

/-- `FetchByte()` (R120). -/
def fetchByte (s : State) : Byte × State := (s.mem.read s.pc, s.fetched 1)

/-- `FetchWord()` (R121): low byte first. -/
def fetchWord (s : State) : Word × State :=
  (joinBytes (s.mem.read (s.pc + 1)) (s.mem.read s.pc), s.fetched 2)

/-- `ReadByte(addr)` (R122): one cycle, `pc` untouched. -/
def readByte (addr : Word) (s : State) : Byte × State := (s.mem.read addr, s.debit 1)

/-- `ReadZpWord(ptr)` (R123): two `ReadByte`s, the second address wrapping within the zero page. -/
def readZpWord (ptr : Byte) (s : State) : Word × State :=
  let (lo, s1) := readByte (zext16 ptr) s
  let (hi, s2) := readByte (zext16 (ptr + 1)) s1
  (joinBytes hi lo, s2)

/-- `WriteWord(v, addr)` (20_memory.md R66): low byte at `addr`, high byte at `addr +16 1`, two cycles. -/
def writeWord (v addr : Word) (s : State) : State :=
  State.debit { s with mem := (s.mem.write addr (loByte v)).write (addr + 1) (hiByte v) } 2

/-! ## ALU (spec/40_fetch_alu_addressing.md, section 2): the address arithmetic, which writes no flag (R135) -/

/-- `ZpIndex(b, i)` (R130): the 8-bit sum, never out of the zero page. -/
def zpIndex (b i : Byte) : Byte := b + i

/-- `AbsIndex(base, i)` (R132): the 16-bit sum and whether its page differs from the base's. -/
def absIndex (base : Word) (i : Byte) : Word × Bool :=
  let ea := base + zext16 i
  (ea, hiByte ea != hiByte base)

/-- `RetAddr(p)` (R133). -/
def retAddr (p : Word) : Word := p - 1

/-- `SpAdvance(s)` (R134). -/
def spAdvance (sp : Byte) : Byte := sp + 2

/-- `STACK_BASE` (spec/00_scope.md R6, decision D5). -/
def stackBase : Word := 0x0100

/-- The address a stack access at `sp` goes to (spec/10_state.md R38, spec/43_subroutine_call.md R231). -/
def stackAddr (sp : Byte) : Word := stackBase + zext16 sp

/-! ## The one event (spec/41_dispatch_execute.md R174) -/

/-- `report UnknownOpcode(addr, byte)` (spec/00_scope.md R13): appended to the log (spec/10_state.md R48). -/
def State.report (s : State) (addr : Word) (byte : Byte) : State := { s with reports := s.reports ++ [(addr, byte)] }

end Sys2Proof.Machine
end

