-- ==== Sys2Proof/Machine/Boundary.lean ====
section
/-! DEFINITION. What happens at an instruction boundary beside the instructions' own meanings: reading the instruction at
`pc`, the unknown opcode, the end of a call, the idle machine; and the placing of an instruction for the next step. -/

namespace Sys2Proof.Machine

/-- The instruction at `pc`, read from the three bytes from `pc` on, addresses modulo 65536 (spec/30_encoding.md R90, R91);
`none` is an unknown opcode. Fetching reads the current memory (spec/20_memory.md R75). -/
def decodeAt (s : State) : Option Instr :=
  decodeWindow (s.mem.read s.pc) (s.mem.read (s.pc + 1)) (s.mem.read (s.pc + 2))

/-- An unknown opcode (spec/41_dispatch_execute.md R174): its fetch and the report, nothing else. -/
def unknownOpcode (s : State) : Host.Outcome State Fault Refusal :=
  let (op, s') := fetchByte s
  .next (s'.report s.pc op)

/-- The exit of the execute loop (R170, R178): `run <- idle`, and the counter is gone (spec/10_state.md R45). -/
def endCall (s : State) : State := { s with run := .idle }

/-- The idle machine "holds all state unchanged until the host acts" (spec/60_exceptions.md R313). -/
def idleStep (s : State) : Host.Outcome State Fault Refusal := .next s

/-- A run state in which the loop's next test lets an iteration run: the one given, if it does, or that of a call
`execute(1)`, which runs exactly one (spec/60_exceptions.md R312). -/
def RunState.started (run : RunState) : RunState :=
  match run with
  | .idle => .running 1
  | .running remaining => if 0 < remaining then .running remaining else .running 1

/-- The instruction whose `nbits` bits are `w` stored at `pc`, in a machine that is about to run it. -/
def placeInstr (s : State) (nbits w : Nat) : State :=
  { s with
    mem := ((s.mem.write s.pc (tableByte nbits w 0)).write (s.pc + 1) (tableByte nbits w 1)).write (s.pc + 2)
      (tableByte nbits w 2)
    run := s.run.started }

end Sys2Proof.Machine
end

