-- ==== Sys2Proof/Machine/Operands.lean ====
section
/-! DEFINITION. The addressing-mode resolver (spec/40_fetch_alu_addressing.md, section 3). Each form takes the operand and the
state after the operand bytes were fetched, and debits the mode's own further cycles; `resolve` is the spec's pseudocode
whole, the operand fetch included. A form writes nothing but the cycle counter (R140) and reads only what R141-R149 show
(R152). -/

namespace Sys2Proof.Machine

/-- What a mode resolves: a value (Immediate) or an effective address (R140). -/
inductive Resolved where
  | value (v : Byte)
  | addr (ea : Word)
  deriving DecidableEq, Repr

/-- Immediate (R141). -/
def immediateForm (v : Byte) (s : State) : Resolved × State := (.value v, s)

/-- Zero Page (R142). -/
def zeroPageForm (zp : Byte) (s : State) : Resolved × State := (.addr (zext16 zp), s)

/-- Zero Page indexed (R143, R144): one cycle for the addition, wrap or not. -/
def zeroPageIndexedForm (zp index : Byte) (s : State) : Resolved × State :=
  (.addr (zext16 (zpIndex zp index)), s.debit 1)

/-- Absolute (R145). -/
def absoluteForm (abs : Word) (s : State) : Resolved × State := (.addr abs, s)

/-- A base indexed by a register (R146, R147, R149): one cycle more on a page cross only. -/
def indexedForm (base : Word) (index : Byte) (s : State) : Resolved × State :=
  let (ea, cross) := absIndex base index
  (.addr ea, if cross then s.debit 1 else s)

/-- Indirect,X (R148): the pointer is indexed, the word read through it is not. -/
def indirectXForm (zp : Byte) (s : State) : Resolved × State :=
  let (ea, s') := readZpWord (zpIndex zp s.x) (s.debit 1)
  (.addr ea, s')

/-- Indirect,Y (R149): the word read through the pointer is indexed, the pointer is not. -/
def indirectYForm (zp : Byte) (s : State) : Resolved × State :=
  let (base, s') := readZpWord zp s
  indexedForm base s'.y s'

/-- `Resolve(mode)` (R141-R149), the operand fetched by the fetch unit. -/
def resolve (m : Mode) (s : State) : Resolved × State :=
  match m with
  | .immediate => let (v, s') := fetchByte s; immediateForm v s'
  | .zeroPage  => let (zp, s') := fetchByte s; zeroPageForm zp s'
  | .zeroPageX => let (zp, s') := fetchByte s; zeroPageIndexedForm zp s'.x s'
  | .zeroPageY => let (zp, s') := fetchByte s; zeroPageIndexedForm zp s'.y s'
  | .absolute  => let (a, s') := fetchWord s; absoluteForm a s'
  | .absoluteX => let (base, s') := fetchWord s; indexedForm base s'.x s'
  | .absoluteY => let (base, s') := fetchWord s; indexedForm base s'.y s'
  | .indirectX => let (zp, s') := fetchByte s; indirectXForm zp s'
  | .indirectY => let (zp, s') := fetchByte s; indirectYForm zp s'

/-- The state after the bytes of an `F2` instruction were fetched: the opcode by the loop, the operand byte by the
resolver (spec/30_encoding.md R91, R97). -/
def State.fetchedF2 (s : State) : State := (s.fetched 1).fetched 1

/-- The state after the bytes of an `F3` instruction were fetched: the opcode, then the address word (R91, R97). -/
def State.fetchedF3 (s : State) : State := (s.fetched 1).fetched 2

end Sys2Proof.Machine
end

