-- ==== Sys2Proof/Machine/Call.lean ====
section
/-! DEFINITION. The subroutine call (spec/43_subroutine_call.md R230-R232). -/

namespace Sys2Proof.Machine

/-- The part of JSR after its target was fetched, with `pc` past its three bytes (R230): the return address goes to the
stack page at the current `SP`, low byte first, `SP` advances upward (R232), `pc` takes the target, and one more cycle is
debited. No flag is written. -/
def callTo (target : Word) (s : State) : State :=
  let ret := retAddr s.pc
  let s1 := writeWord ret (stackAddr s.sp) s
  let s2 := { s1 with sp := spAdvance s1.sp }
  let s3 := { s2 with pc := target }
  s3.debit 1

/-- JSR (R230). -/
def execJsr (target : Word) (s : State) : Host.Outcome State Fault Refusal := .next (callTo target s.fetchedF3)

end Sys2Proof.Machine
end

