-- ==== Sys2Proof/Machine/Flags.lean ====
section
/-! DEFINITION. The flag computation (spec/40_fetch_alu_addressing.md R131), the only one: no other operation writes a
flag (R135). -/

namespace Sys2Proof.Machine

/-- `SetNZ(result)` (R131): `Z` and `N`, no other flag. -/
def State.setNZ (s : State) (result : Byte) : State :=
  { s with flagZ := result == 0x00, flagN := result.getLsbD 7 }

end Sys2Proof.Machine
end

