-- ==== Sys2Proof/Machine/Load.lean ====
section
/-! DEFINITION. The load-register family, LDA, LDX and LDY (spec/42_load_register.md R200-R218). Each meaning is given the
operand the decoder read, starts at the instruction boundary, with `pc` at the opcode, and makes every debit of the
instruction, the opcode fetch's too (spec/41_dispatch_execute.md R171). -/

namespace Sys2Proof.Machine

/-- The type of a meaning's answer. -/
abbrev Answer := Host.Outcome State Fault Refusal

/-- The part of `Load(r, mode)` after the mode was resolved (R200): the data read unless Immediate, the register, `Z`
and `N`. -/
def loadInto (r : Reg) (resolved : Resolved × State) : State :=
  match resolved.1 with
  | .value v => (resolved.2.setReg r v).setNZ v
  | .addr ea => let (v, s) := readByte ea resolved.2; (s.setReg r v).setNZ v

/-- LDA_IM (R201). -/
def execLdaIm (imm : Byte) (s : State) : Answer := .next (loadInto .a (immediateForm imm s.fetchedF2))

/-- LDA_ZP (R202). -/
def execLdaZp (zp : Byte) (s : State) : Answer := .next (loadInto .a (zeroPageForm zp s.fetchedF2))

/-- LDA_ZPX (R203). -/
def execLdaZpx (zp : Byte) (s : State) : Answer := .next (loadInto .a (zeroPageIndexedForm zp s.x s.fetchedF2))

/-- LDA_ABS (R204). -/
def execLdaAbs (abs : Word) (s : State) : Answer := .next (loadInto .a (absoluteForm abs s.fetchedF3))

/-- LDA_ABSX (R205). -/
def execLdaAbsx (abs : Word) (s : State) : Answer := .next (loadInto .a (indexedForm abs s.x s.fetchedF3))

/-- LDA_ABSY (R206). -/
def execLdaAbsy (abs : Word) (s : State) : Answer := .next (loadInto .a (indexedForm abs s.y s.fetchedF3))

/-- LDA_INDX (R207). -/
def execLdaIndx (zp : Byte) (s : State) : Answer := .next (loadInto .a (indirectXForm zp s.fetchedF2))

/-- LDA_INDY (R208). -/
def execLdaIndy (zp : Byte) (s : State) : Answer := .next (loadInto .a (indirectYForm zp s.fetchedF2))

/-- LDX_IM (R209). -/
def execLdxIm (imm : Byte) (s : State) : Answer := .next (loadInto .x (immediateForm imm s.fetchedF2))

/-- LDX_ZP (R210). -/
def execLdxZp (zp : Byte) (s : State) : Answer := .next (loadInto .x (zeroPageForm zp s.fetchedF2))

/-- LDX_ZPY (R211). -/
def execLdxZpy (zp : Byte) (s : State) : Answer := .next (loadInto .x (zeroPageIndexedForm zp s.y s.fetchedF2))

/-- LDX_ABS (R212). -/
def execLdxAbs (abs : Word) (s : State) : Answer := .next (loadInto .x (absoluteForm abs s.fetchedF3))

/-- LDX_ABSY (R213). -/
def execLdxAbsy (abs : Word) (s : State) : Answer := .next (loadInto .x (indexedForm abs s.y s.fetchedF3))

/-- LDY_IM (R214). -/
def execLdyIm (imm : Byte) (s : State) : Answer := .next (loadInto .y (immediateForm imm s.fetchedF2))

/-- LDY_ZP (R215). -/
def execLdyZp (zp : Byte) (s : State) : Answer := .next (loadInto .y (zeroPageForm zp s.fetchedF2))

/-- LDY_ZPX (R216). -/
def execLdyZpx (zp : Byte) (s : State) : Answer := .next (loadInto .y (zeroPageIndexedForm zp s.x s.fetchedF2))

/-- LDY_ABS (R217). -/
def execLdyAbs (abs : Word) (s : State) : Answer := .next (loadInto .y (absoluteForm abs s.fetchedF3))

/-- LDY_ABSX (R218). -/
def execLdyAbsx (abs : Word) (s : State) : Answer := .next (loadInto .y (indexedForm abs s.x s.fetchedF3))

end Sys2Proof.Machine
end

