-- ==== Sys2Proof/Machine/Dispatch.lean ====
section
/-! DEFINITION. One arm per instruction, each a direct call of its meaning (spec/41_dispatch_execute.md R161). -/

namespace Sys2Proof.Machine

def exec (i : Instr) (s : State) : Host.Outcome State Fault Refusal :=
  match i with
  | .ldaIm imm => Sys2Proof.Machine.execLdaIm imm s
  | .ldaZp zp => Sys2Proof.Machine.execLdaZp zp s
  | .ldaZpx zp => Sys2Proof.Machine.execLdaZpx zp s
  | .ldaAbs abs => Sys2Proof.Machine.execLdaAbs abs s
  | .ldaAbsx abs => Sys2Proof.Machine.execLdaAbsx abs s
  | .ldaAbsy abs => Sys2Proof.Machine.execLdaAbsy abs s
  | .ldaIndx zp => Sys2Proof.Machine.execLdaIndx zp s
  | .ldaIndy zp => Sys2Proof.Machine.execLdaIndy zp s
  | .ldxIm imm => Sys2Proof.Machine.execLdxIm imm s
  | .ldxZp zp => Sys2Proof.Machine.execLdxZp zp s
  | .ldxZpy zp => Sys2Proof.Machine.execLdxZpy zp s
  | .ldxAbs abs => Sys2Proof.Machine.execLdxAbs abs s
  | .ldxAbsy abs => Sys2Proof.Machine.execLdxAbsy abs s
  | .ldyIm imm => Sys2Proof.Machine.execLdyIm imm s
  | .ldyZp zp => Sys2Proof.Machine.execLdyZp zp s
  | .ldyZpx zp => Sys2Proof.Machine.execLdyZpx zp s
  | .ldyAbs abs => Sys2Proof.Machine.execLdyAbs abs s
  | .ldyAbsx abs => Sys2Proof.Machine.execLdyAbsx abs s
  | .jsr target => Sys2Proof.Machine.execJsr target s

end Sys2Proof.Machine
end

