-- ==== Sys2Proof/Machine/Step.lean ====
section
/-! DEFINITION. One step of the machine (spec/41_dispatch_execute.md R170, R171): one iteration of the execute loop, or the
loop's exit; an idle machine stays as it is. -/

namespace Sys2Proof.Machine

/-- The step (R171). The budget is tested here only, at the instruction boundary and before the opcode fetch (R170); an
instruction whose opcode is fetched completes (R172). -/
def step (s : State) : Host.Outcome State Fault Refusal :=
  match s.run with
  | .idle => idleStep s
  | .running remaining =>
    if 0 < remaining then
      match decodeAt s with
      | some i => exec i s
      | none   => unknownOpcode s
    else .next (endCall s)

/-- `s` with an instruction stored where `step` fetches next, and, if no call is in progress, the host's call
`execute(1)` begun (log entry 5). -/
def State.withFetchWord (s : State) (nbits w : Nat) : State := placeInstr s nbits w

end Sys2Proof.Machine
end

