-- ==== Sys2Proof/Machine/Loop.lean ====
section
/-! DEFINITION. The execute loop as the spec's own pseudocode has it (spec/41_dispatch_execute.md R161, R162, R170): each byte is
fetched when it is asked for, and the dispatch table is a parameter. `step` decodes the whole instruction first; that the
two agree for R100's table is a statement (Obligations.StepIsTheSpecsIteration). -/

namespace Sys2Proof.Machine

/-- `Load(r, mode)` (spec/42_load_register.md R200), for every destination and every mode. -/
def loadHandler (r : Reg) (m : Mode) (s : State) : State := loadInto r (resolve m s)

/-- JSR's handler, `pc` at its byte 1 on entry (spec/43_subroutine_call.md R230). -/
def jsrHandler (s : State) : State :=
  let (target, s') := fetchWord s
  callTo target s'

/-- `Dispatch(e)` (R161). -/
def handler (op : Operation) (s : State) : State :=
  match op with
  | .load r m => loadHandler r m s
  | .jsr      => jsrHandler s

/-- One iteration of the loop under a dispatch table (R170, R171). -/
def iterate (t : List Row) (s : State) : State :=
  let start := s.pc
  let (op, s') := fetchByte s
  match lookup t op with
  | some row => handler row.op s'
  | none     => s'.report start op

/-- The loop's test (R170): is `remaining > 0`? -/
def RunState.live (run : RunState) : Bool :=
  match run with
  | .idle => false
  | .running remaining => decide (0 < remaining)

/-- The `while` loop (R170) for at most `fuel` iterations. Each iteration debits a cycle, so the budget itself is fuel
enough (R177). -/
def whileLoop (t : List Row) (fuel : Nat) (s : State) : State :=
  match fuel with
  | 0 => s
  | k + 1 => if s.run.live then whileLoop t k (iterate t s) else s

/-- Call entry (R170): `run <- running; remaining <- budget`. -/
def beginCall (budget : Nat) (s : State) : State := { s with run := .running budget }

/-- `budget - remaining` (R175), read before the counter is gone; at the loop's exit the machine is running. -/
def consumed (budget : Nat) (run : RunState) : Int :=
  match run with
  | .idle => 0
  | .running remaining => budget - remaining

/-- `execute(budget)` (R170): the consumed cycles and the machine after it. It requires `run = idle`. -/
def execute (t : List Row) (budget : Nat) (s : State) : Host.Outcome (Int × State) Fault Refusal :=
  match s.run with
  | .running _ => .refused .hostWhileRunning
  | .idle =>
    let s' := whileLoop t budget (beginCall budget s)
    .next (consumed budget s'.run, endCall s')

end Sys2Proof.Machine
end

