-- ==== Sys2Proof/Machine/HostCalls.lean ====
section
/-! DEFINITION. The host's operations (spec/41_dispatch_execute.md R180-R186, spec/70_reset_and_hazards.md R400-R404): reset,
execute, inspection, preload, replacing the memory image. They act only while the machine is idle (R185). -/

namespace Sys2Proof.Machine

/-- The machine as the host holds it: `none` before the first reset, when nothing has a value (spec/10_state.md R53). -/
abbrev Session := Option State

/-- One write of the host between calls (R183). -/
inductive Preload where
  | pc (v : Word)
  | sp (v : Byte)
  | reg (r : Reg) (v : Byte)
  | flagC (v : Bool)
  | flagZ (v : Bool)
  | flagI (v : Bool)
  | flagD (v : Bool)
  | flagB (v : Bool)
  | flagV (v : Bool)
  | flagN (v : Bool)
  | mem (addr : Word) (v : Byte)
  deriving DecidableEq, Repr

/-- What the host can ask (R180-R184). A budget is a natural number, so that a negative one cannot be asked (R181). -/
inductive HostCall where
  | reset
  | execute (budget : Nat)
  | inspect
  | preload (w : Preload)
  /-- The image with these bytes, later ones winning, and 0x00 everywhere else (R184, spec/20_memory.md R76). -/
  | replaceImage (cells : List (Word × Byte))
  deriving DecidableEq, Repr

/-- What the host gets back (R185). -/
inductive HostReply where
  | done
  | consumed (cycles : Int)
  | view (s : State)
  deriving DecidableEq, Repr

/-- `reset()` of a machine that was reset before (70_reset_and_hazards.md R400): every value of R52, `reports` kept. -/
def hostReset (s : State) : State := { State.reset with reports := s.reports }

/-- A host write (R183). -/
def applyPreload (w : Preload) (s : State) : State :=
  match w with
  | .pc v     => { s with pc := v }
  | .sp v     => { s with sp := v }
  | .reg r v  => s.setReg r v
  | .flagC v  => { s with flagC := v }
  | .flagZ v  => { s with flagZ := v }
  | .flagI v  => { s with flagI := v }
  | .flagD v  => { s with flagD := v }
  | .flagB v  => { s with flagB := v }
  | .flagV v  => { s with flagV := v }
  | .flagN v  => { s with flagN := v }
  | .mem a v  => { s with mem := s.mem.write a v }

/-- The image the listed bytes make. -/
def imageOf (cells : List (Word × Byte)) : Memory := cells.foldl (fun m c => Memory.write m c.1 c.2) []

/-- A host operation on a machine that was reset (R185): none while it runs. -/
def hostCallOn (t : List Row) (s : State) (call : HostCall) : Host.Outcome (Session × HostReply) Fault Refusal :=
  match s.run with
  | .running _ => .refused .hostWhileRunning
  | .idle =>
    match call with
    | .reset => .next (some (hostReset s), .done)
    | .execute budget =>
      match execute t budget s with
      | .next (n, s') => .next (some s', .consumed n)
      | .fault r => .fault r
      | .refused r => .refused r
    | .inspect => .next (some s, .view s)
    | .preload w => .next (some (applyPreload w s), .done)
    | .replaceImage cells => .next (some { s with mem := imageOf cells }, .done)

/-- A host operation (R180-R185). Before the first reset, execute and inspection are refused (10_state.md R53), and what
the host writes is lost (70_reset_and_hazards.md R404; log entry 8). -/
def hostCall (t : List Row) (session : Session) (call : HostCall) : Host.Outcome (Session × HostReply) Fault Refusal :=
  match session with
  | some s => hostCallOn t s call
  | none =>
    match call with
    | .reset => .next (some State.reset, .done)
    | .execute _ => .refused .beforeFirstReset
    | .inspect => .refused .beforeFirstReset
    | .preload _ => .next (none, .done)
    | .replaceImage _ => .next (none, .done)

end Sys2Proof.Machine
end

