-- ==== Sys2Proof/Safety.lean ====
section
/-! DEFINITION. The terms the claims use: when the loop runs an iteration, the invariants, and the spec's address and
page arithmetic written on natural numbers, so that a claim does not repeat the operation it is about. -/

namespace Sys2Proof.Machine

/-! ## When an iteration runs, and what is invariant -/

/-- The next step runs an iteration: the machine is running and `remaining > 0` (spec/41_dispatch_execute.md R170). -/
abbrev State.Ready (s : State) : Prop := s.run.live = true

/-- The memory image is in its canonical form. -/
abbrev State.MemoryCanonical (s : State) : Prop := s.mem.wf = true

/-- `SP` is even (spec/10_state.md R39). -/
abbrev State.SpEven (s : State) : Prop := s.sp.toNat % 2 = 0

/-- The counter is at most five below zero: the dearest instruction costs six cycles (spec/10_state.md R45,
spec/30_encoding.md R100). -/
def State.CounterBounded (s : State) : Prop := ∀ remaining, s.run = .running remaining → -5 ≤ remaining

/-- A safe step: the machine goes on (spec/60_exceptions.md R301). -/
def StepCompletes (s : State) : Prop := ∃ t, step s = .next t

/-- Apply a function to the state an outcome goes on with. -/
def mapNext (f : State → State) (o : Host.Outcome State Fault Refusal) : Host.Outcome State Fault Refusal :=
  match o with
  | .next t => .next (f t)
  | .fault r => .fault r
  | .refused r => .refused r

/-! ## Which register an instruction loads -/

/-- The register a load writes; JSR writes none of `A`, `X`, `Y` (spec/42_load_register.md R200, 43_subroutine_call.md R230). -/
def destination (i : Instr) : Option Reg :=
  match i with
  | .ldaIm _   => some .a
  | .ldaZp _   => some .a
  | .ldaZpx _  => some .a
  | .ldaAbs _  => some .a
  | .ldaAbsx _ => some .a
  | .ldaAbsy _ => some .a
  | .ldaIndx _ => some .a
  | .ldaIndy _ => some .a
  | .ldxIm _   => some .x
  | .ldxZp _   => some .x
  | .ldxZpy _  => some .x
  | .ldxAbs _  => some .x
  | .ldxAbsy _ => some .x
  | .ldyIm _   => some .y
  | .ldyZp _   => some .y
  | .ldyZpx _  => some .y
  | .ldyAbs _  => some .y
  | .ldyAbsx _ => some .y
  | .jsr _     => none

/-- The register the instruction at `pc` loads, if one stands there and it is a load. -/
def destinationAt (s : State) : Option Reg := (decodeAt s).bind destination

/-! ## Addresses and pages as numbers -/

/-- `hi*256 + lo` (spec/00_scope.md R8, spec/20_memory.md R65). -/
def littleEndian (lo hi : Byte) : Word := BitVec.ofNat 16 (lo.toNat + 256 * hi.toNat)

/-- The zero-page address `n mod 256` (spec/40_fetch_alu_addressing.md R130). -/
def zeroPageAddr (n : Nat) : Word := BitVec.ofNat 16 (n % 256)

/-- The address `n mod 65536` (spec/00_scope.md R9). -/
def addrOf (n : Nat) : Word := BitVec.ofNat 16 (n % 65536)

/-- The word at a zero-page pointer `n mod 256`, its high byte one above it within the zero page (R123). -/
def zeroPageWord (m : Memory) (n : Nat) : Word := littleEndian (m.read (zeroPageAddr n)) (m.read (zeroPageAddr (n + 1)))

/-- "A page boundary was crossed": the 256-byte page of the sum is not the base's (R132). The sum is not reduced: past
0xFFFF its page is 256, a cross too. -/
def pageCrossed (base : Word) (index : Byte) : Bool := decide ((base.toNat + index.toNat) / 256 ≠ base.toNat / 256)

/-- Whether an instruction debits the page-cross cycle in a state (spec/30_encoding.md R103). -/
def crosses (i : Instr) (s : State) : Bool :=
  match i with
  | .ldaIm _     => false
  | .ldaZp _     => false
  | .ldaZpx _    => false
  | .ldaAbs _    => false
  | .ldaAbsx abs => pageCrossed abs s.x
  | .ldaAbsy abs => pageCrossed abs s.y
  | .ldaIndx _   => false
  | .ldaIndy zp  => pageCrossed (zeroPageWord s.mem zp.toNat) s.y
  | .ldxIm _     => false
  | .ldxZp _     => false
  | .ldxZpy _    => false
  | .ldxAbs _    => false
  | .ldxAbsy abs => pageCrossed abs s.y
  | .ldyIm _     => false
  | .ldyZp _     => false
  | .ldyZpx _    => false
  | .ldyAbs _    => false
  | .ldyAbsx abs => pageCrossed abs s.x
  | .jsr _       => false

end Sys2Proof.Machine
end

