-- ==== Sys2Proof/Certificates/Slice0/Obligations.lean ====
section
/-! DEFINITION. The statements for the provers, from the numbered rules of spec/. An instruction's statement has two
clauses: which bytes at `pc` make `step` run it, and the whole state it answers, the rest of which is unchanged. -/

open Sys2Proof Sys2Proof.Machine

/-- Reset of an idle machine always succeeds and leaves every value of the reset table, reports kept (R52, R400,
92_eei_decisions.md D5, 92_eei_decisions.md D12, notes/assumptions/2.md). Derived: it rests on what
spec/92_eei_decisions.md marks as the spec's own choice, D5, D12; see log entries 2, 9, 13. -/
def Obligations.ResetGivesTheSpecsValues : Prop :=
  (∀ (t : List Row) (s : State), s.run = .idle →
    ∃ u, hostCall t (some s) .reset = .next (some u, .done) ∧
      u.pc = 0xFFFC ∧ u.sp = 0x00 ∧ u.a = 0x00 ∧ u.x = 0x00 ∧ u.y = 0x00 ∧
      u.flagC = false ∧ u.flagZ = false ∧ u.flagI = false ∧ u.flagD = false ∧ u.flagB = false ∧ u.flagV = false ∧
      u.flagN = false ∧ (∀ addr, u.mem.read addr = 0x00) ∧ u.run = .idle ∧ u.reports = s.reports) ∧
  (∀ s : State, { hostReset s with reports := [] } = { State.reset with reports := [] })

/-- Reset sets pc to 0xFFFC whatever memory held, and the byte there is the first opcode (R401). The spec states it. -/
def Obligations.ResetReadsNoVector : Prop :=
  (∀ (s : State) (m : Memory), hostReset { s with mem := m } = hostReset s ∧ (hostReset { s with mem := m }).pc = 0xFFFC) ∧
  (∀ (s : State) (image : Memory) (remaining : Int), 0 < remaining →
    step { hostReset s with mem := image, run := .running remaining } =
      match decodeWindow (image.read 0xFFFC) (image.read 0xFFFD) (image.read 0xFFFE) with
      | some i => exec i { hostReset s with mem := image, run := .running remaining }
      | none   => unknownOpcode { hostReset s with mem := image, run := .running remaining })

/-- The host's calls are refused before the first reset and while running, and early writes are lost (R47, R53, R185,
R404, notes/assumptions/8.md, 92_eei_decisions.md D11, 92_eei_decisions.md D13, 92_eei_decisions.md D16). Derived:
it rests on what spec/92_eei_decisions.md marks as the spec's own choice, D11, D13, D16; see log entries 8, 14. -/
def Obligations.HostBoundaryRefusesAsTheSpecSays : Prop :=
  (∀ (t : List Row) (n : Nat), hostCall t none (.execute n) = .refused .beforeFirstReset) ∧
  (∀ t : List Row, hostCall t none .inspect = .refused .beforeFirstReset) ∧
  (∀ (t : List Row) (w : Preload), hostCall t none (.preload w) = .next (none, .done)) ∧
  (∀ (t : List Row) (cells : List (Word × Byte)), hostCall t none (.replaceImage cells) = .next (none, .done)) ∧
  (∀ t : List Row, hostCall t none .reset = .next (some State.reset, .done)) ∧
  (∀ (t : List Row) (s : State) (remaining : Int) (call : HostCall), s.run = .running remaining →
    hostCall t (some s) call = .refused .hostWhileRunning)

/-- While idle the host reads all state without change and writes any register, flag or byte, or passes any image (R182,
R183, R184, R76, 92_eei_decisions.md D11, 92_eei_decisions.md D16, notes/assumptions/14.md). Derived: it rests on
what spec/92_eei_decisions.md marks as the spec's own choice, D11, D16; see log entry 14. -/
def Obligations.HostPreloadsAndInspects : Prop :=
  ∀ (t : List Row) (s : State), s.run = .idle →
    hostCall t (some s) .inspect = .next (some s, .view s) ∧
    (∀ v, hostCall t (some s) (.preload (.pc v)) = .next (some { s with pc := v }, .done)) ∧
    (∀ v, hostCall t (some s) (.preload (.sp v)) = .next (some { s with sp := v }, .done)) ∧
    (∀ v, hostCall t (some s) (.preload (.reg .a v)) = .next (some { s with a := v }, .done)) ∧
    (∀ v, hostCall t (some s) (.preload (.reg .x v)) = .next (some { s with x := v }, .done)) ∧
    (∀ v, hostCall t (some s) (.preload (.reg .y v)) = .next (some { s with y := v }, .done)) ∧
    (∀ v, hostCall t (some s) (.preload (.flagC v)) = .next (some { s with flagC := v }, .done)) ∧
    (∀ v, hostCall t (some s) (.preload (.flagZ v)) = .next (some { s with flagZ := v }, .done)) ∧
    (∀ v, hostCall t (some s) (.preload (.flagI v)) = .next (some { s with flagI := v }, .done)) ∧
    (∀ v, hostCall t (some s) (.preload (.flagD v)) = .next (some { s with flagD := v }, .done)) ∧
    (∀ v, hostCall t (some s) (.preload (.flagB v)) = .next (some { s with flagB := v }, .done)) ∧
    (∀ v, hostCall t (some s) (.preload (.flagV v)) = .next (some { s with flagV := v }, .done)) ∧
    (∀ v, hostCall t (some s) (.preload (.flagN v)) = .next (some { s with flagN := v }, .done)) ∧
    (∀ addr v, ∃ m, hostCall t (some s) (.preload (.mem addr v)) = .next (some { s with mem := m }, .done) ∧
      m.read addr = v ∧ ∀ b, b ≠ addr → m.read b = s.mem.read b) ∧
    (∀ cells : List (Word × Byte), ∃ m,
      hostCall t (some s) (.replaceImage cells) = .next (some { s with mem := m }, .done) ∧
      ∀ addr, m.read addr = ((cells.reverse.find? fun c => c.1 == addr).map Prod.snd).getD 0x00) ∧
    (∀ image : Word → Byte, ∃ (cells : List (Word × Byte)) (m : Memory),
      hostCall t (some s) (.replaceImage cells) = .next (some { s with mem := m }, .done) ∧
      ∀ addr, m.read addr = image addr)

/-- A read returns the last byte written to its address, else the byte before, which reset makes 0x00 (R62, R73). The
spec states it. -/
def Obligations.MemReadReturnsTheLastWrite : Prop :=
  (∀ (m : Memory) (writes : List (Word × Byte)) (addr : Word),
    Memory.read (writes.foldl (fun image w => Memory.write image w.1 w.2) m) addr =
      ((writes.reverse.find? fun w => w.1 == addr).map Prod.snd).getD (m.read addr)) ∧
  (∀ addr, State.reset.mem.read addr = 0x00)

/-- The memory of the reset state is in canonical form, and the counter bound and SP parity hold there (R52, R39, R45,
notes/assumptions/3.md, 92_eei_decisions.md D5, 92_eei_decisions.md D9). Derived: the canonical form of memory is
the model's choice (DEDUCED, log entry 3), no rule of the spec; it rests on what spec/92_eei_decisions.md marks as
the spec's own choice, D5, D9; see log entries 3, 9, 12. -/
def Obligations.ResetMemoryIsCanonical : Prop :=
  State.reset.MemoryCanonical ∧ State.reset.SpEven ∧ State.reset.CounterBounded

/-- Every step and every host operation keeps the memory image in canonical form (20_memory.md, notes/assumptions/3.md).
Derived: the canonical form of memory is the model's choice (DEDUCED, log entry 3), no rule of the spec; see log
entry 3. -/
def Obligations.EveryStepKeepsMemoryCanonical : Prop :=
  (∀ s t : State, s.MemoryCanonical → step s = .next t → t.MemoryCanonical) ∧
  (∀ (table : List Row) (s t : State) (call : HostCall) (reply : HostReply), s.MemoryCanonical →
    hostCall table (some s) call = .next (some t, reply) → t.MemoryCanonical)

/-- WriteWord stores low byte then high byte, debits 2, and a word read there returns the word (R66, R67,
92_eei_decisions.md D6). Derived: it rests on what spec/92_eei_decisions.md marks as the spec's own choice, D6; see
log entry 10. -/
def Obligations.WordWriteIsLittleEndianAndReadsBack : Prop :=
  ∀ (v addr : Word) (s : State),
    (∃ m, writeWord v addr s = { s with mem := m, run := s.run.debit 2 }) ∧
    (writeWord v addr s).mem.read addr = BitVec.ofNat 8 (v.toNat % 256) ∧
    (writeWord v addr s).mem.read (addr + 1) = BitVec.ofNat 8 (v.toNat / 256) ∧
    (∀ b, b ≠ addr → b ≠ addr + 1 → (writeWord v addr s).mem.read b = s.mem.read b) ∧
    (fetchWord { writeWord v addr s with pc := addr }).1 = v ∧
    (∀ p : Byte, p ≠ 0xFF → addr = BitVec.ofNat 16 p.toNat → (readZpWord p (writeWord v addr s)).1 = v)

/-- FetchByte, FetchWord, ReadByte and ReadZpWord return their bytes, move pc and debit their cycles (R120, R121, R122,
R123, 92_eei_decisions.md D6, 92_eei_decisions.md D8, 92_eei_decisions.md D18). Derived: it rests on what
spec/92_eei_decisions.md marks as the spec's own choice, D6, D8, D18; see log entries 10, 11. -/
def Obligations.FetchUnitPrimitives : Prop :=
  (∀ s : State, fetchByte s =
    (s.mem.read s.pc, { s with pc := addrOf (s.pc.toNat + 1), run := s.run.debit 1 })) ∧
  (∀ s : State, fetchWord s =
    (littleEndian (s.mem.read s.pc) (s.mem.read (addrOf (s.pc.toNat + 1))),
      { s with pc := addrOf (s.pc.toNat + 2), run := s.run.debit 2 })) ∧
  (∀ (addr : Word) (s : State), readByte addr s = (s.mem.read addr, { s with run := s.run.debit 1 })) ∧
  (∀ (ptr : Byte) (s : State), readZpWord ptr s =
    (littleEndian (s.mem.read (zeroPageAddr ptr.toNat)) (s.mem.read (zeroPageAddr (ptr.toNat + 1))),
      { s with run := s.run.debit 2 }))

/-- ZpIndex wraps at 8 bits, RetAddr is one less at 16, SetNZ writes Z and N and no other flag (R130, R131, R133). The
spec states it. -/
def Obligations.AluArithmeticWrapsAndFlags : Prop :=
  (∀ b i : Byte, (zpIndex b i).toNat = (b.toNat + i.toNat) % 256) ∧
  (∀ p : Word, (retAddr p).toNat = (p.toNat + 65535) % 65536) ∧
  (∀ (s : State) (v : Byte), s.setNZ v = { s with flagZ := decide (v.toNat = 0), flagN := decide (128 ≤ v.toNat) })

/-- The dispatch table has the 19 rows of the spec, opcodes distinct (R100, R101, 92_eei_decisions.md D2,
92_eei_decisions.md D3, notes/assumptions/6.md). Derived: it rests on what spec/92_eei_decisions.md marks as the
spec's own choice, D2, D3; see log entries 6, 7. -/
def Obligations.DispatchTableIsTheSpecs : Prop :=
  dispatchTable.map (fun r => (r.opcode, r.name, r.op, r.baseCycles, r.pageCross)) =
    [(0xA9, "LDA_IM", .load .a .immediate, 2, false), (0xA5, "LDA_ZP", .load .a .zeroPage, 3, false),
     (0xB5, "LDA_ZPX", .load .a .zeroPageX, 4, false), (0xAD, "LDA_ABS", .load .a .absolute, 4, false),
     (0xBD, "LDA_ABSX", .load .a .absoluteX, 4, true), (0xB9, "LDA_ABSY", .load .a .absoluteY, 4, true),
     (0xA1, "LDA_INDX", .load .a .indirectX, 6, false), (0xB1, "LDA_INDY", .load .a .indirectY, 5, true),
     (0xA2, "LDX_IM", .load .x .immediate, 2, false), (0xA6, "LDX_ZP", .load .x .zeroPage, 3, false),
     (0xB6, "LDX_ZPY", .load .x .zeroPageY, 4, false), (0xAE, "LDX_ABS", .load .x .absolute, 4, false),
     (0xBE, "LDX_ABSY", .load .x .absoluteY, 4, true), (0xA0, "LDY_IM", .load .y .immediate, 2, false),
     (0xA4, "LDY_ZP", .load .y .zeroPage, 3, false), (0xB4, "LDY_ZPX", .load .y .zeroPageX, 4, false),
     (0xAC, "LDY_ABS", .load .y .absolute, 4, false), (0xBC, "LDY_ABSX", .load .y .absoluteX, 4, true),
     (0x20, "JSR", .jsr, 6, false)] ∧
  tableWellFormed dispatchTable = true

/-- The byte sequences of the spec's assembler table decode to the instructions they stand for (R91, R95, R100, R108,
92_eei_decisions.md D2, 92_eei_decisions.md D3, notes/assumptions/6.md). Derived: it rests on what
spec/92_eei_decisions.md marks as the spec's own choice, D2, D3; see log entries 6, 7. -/
def Obligations.WordsWrittenFromTheSpecDecode : Prop :=
  decode [0xA9, 0x42] = .instr (.ldaIm 0x42) [] ∧ decode [0xA5, 0x40] = .instr (.ldaZp 0x40) [] ∧
  decode [0xB5, 0x80] = .instr (.ldaZpx 0x80) [] ∧ decode [0xB6, 0x10] = .instr (.ldxZpy 0x10) [] ∧
  decode [0xAD, 0x34, 0x12] = .instr (.ldaAbs 0x1234) [] ∧ decode [0xBD, 0x01, 0x44] = .instr (.ldaAbsx 0x4401) [] ∧
  decode [0xB9, 0x01, 0x44] = .instr (.ldaAbsy 0x4401) [] ∧ decode [0xA1, 0x20] = .instr (.ldaIndx 0x20) [] ∧
  decode [0xB1, 0x20] = .instr (.ldaIndy 0x20) [] ∧ decode [0x20, 0x00, 0x40] = .instr (.jsr 0x4000) [] ∧
  decode [0x00] = .rejected (.unknownOpcode 0x00)

/-- The opcode byte alone tells the length; a stream is unknown exactly when its opcode has no entry (R92,
92_eei_decisions.md D2, notes/assumptions/6.md). Derived: it rests on what spec/92_eei_decisions.md marks as the
spec's own choice, D2; see log entry 6. -/
def Obligations.OpcodeTellsLengthAndDecodingIsTotal : Prop :=
  (∀ op : Byte, opcodeLength dispatchTable op =
    if op ∈ ([0xAD, 0xBD, 0xB9, 0xAE, 0xBE, 0xAC, 0xBC, 0x20] : List Byte) then 3
    else if op ∈ ([0xA9, 0xA5, 0xB5, 0xA1, 0xB1, 0xA2, 0xA6, 0xB6, 0xA0, 0xA4, 0xB4] : List Byte) then 2 else 1) ∧
  (∀ (op : Byte) (rest : List Byte), decode (op :: rest) = .rejected (.unknownOpcode op) ↔
    op ∉ ([0xAD, 0xBD, 0xB9, 0xAE, 0xBE, 0xAC, 0xBC, 0x20, 0xA9, 0xA5, 0xB5, 0xA1, 0xB1, 0xA2, 0xA6, 0xB6, 0xA0, 0xA4, 0xB4] : List Byte)) ∧
  (∀ (op : Byte) (rest : List Byte), op ∈ ([0xAD, 0xBD, 0xB9, 0xAE, 0xBE, 0xAC, 0xBC, 0x20, 0xA9, 0xA5, 0xB5, 0xA1, 0xB1, 0xA2, 0xA6, 0xB6, 0xA0, 0xA4, 0xB4] : List Byte) →
    opcodeLength dispatchTable op ≤ rest.length + 1 →
    ∃ i, decode (op :: rest) = .instr i (rest.drop (opcodeLength dispatchTable op - 1)))

/-- Decoding the encoding of any instruction, with any bytes after it, gives it back (R91, R93, R94, R95, R100,
92_eei_decisions.md D2, 92_eei_decisions.md D3, notes/assumptions/6.md). Derived: it rests on what
spec/92_eei_decisions.md marks as the spec's own choice, D2, D3; see log entries 6, 7. -/
def Obligations.DecodeOfEncodeIsTheInstruction : Prop :=
  ∀ (i : Instr) (rest : List Byte), i.wellFormed = true → decode (encode i ++ rest) = .instr i rest

/-- Bytes that decode to an instruction are its encoding and the bytes left over (R91, R93, R94, R95, R102,
92_eei_decisions.md D2, 92_eei_decisions.md D3, notes/assumptions/6.md). Derived: it rests on what
spec/92_eei_decisions.md marks as the spec's own choice, D2, D3; see log entries 6, 7. -/
def Obligations.EncodeOfDecodeIsTheBytes : Prop :=
  ∀ (bytes : List Byte) (i : Instr) (rest : List Byte), decode bytes = .instr i rest → bytes = encode i ++ rest

/-- Immediate, Zero Page, Absolute and Zero Page,X/Y resolve; the zero-page sums never leave page 0 (R141, R142, R143,
R144, R145). The spec states it. -/
def Obligations.UnindexedAndZeroPageModesResolve : Prop :=
  ∀ s : State,
    resolve .immediate s = (.value (fetchByte s).1, (fetchByte s).2) ∧
    resolve .zeroPage s = (.addr (zeroPageAddr (fetchByte s).1.toNat), (fetchByte s).2) ∧
    resolve .zeroPageX s = (.addr (zeroPageAddr ((fetchByte s).1.toNat + s.x.toNat)), (fetchByte s).2.debit 1) ∧
    resolve .zeroPageY s = (.addr (zeroPageAddr ((fetchByte s).1.toNat + s.y.toNat)), (fetchByte s).2.debit 1) ∧
    resolve .absolute s = (.addr (fetchWord s).1, (fetchWord s).2) ∧
    (resolve .immediate s).2.run = s.run.debit 1 ∧ (resolve .zeroPage s).2.run = s.run.debit 1 ∧
    (resolve .zeroPageX s).2.run = s.run.debit 2 ∧ (resolve .zeroPageY s).2.run = s.run.debit 2 ∧
    (resolve .absolute s).2.run = s.run.debit 2

/-- Absolute,X/Y and Indirect,Y debit one more on a page cross only; Indirect,X indexes the pointer (R132, R146, R147,
R148, R149, 92_eei_decisions.md D7, 92_eei_decisions.md D8, 92_eei_decisions.md D18). Derived: it rests on what
spec/92_eei_decisions.md marks as the spec's own choice, D7, D8, D18; see log entries 10, 11. -/
def Obligations.IndexedAndIndirectModesResolve : Prop :=
  ∀ s : State,
    let word := littleEndian (s.mem.read s.pc) (s.mem.read (addrOf (s.pc.toNat + 1)))
    let pointed := zeroPageWord s.mem (s.mem.read s.pc).toNat
    (∀ (base : Word) (i : Byte), absIndex base i = (addrOf (base.toNat + i.toNat), pageCrossed base i)) ∧
    resolve .absoluteX s = (.addr (addrOf (word.toNat + s.x.toNat)),
      { s with pc := addrOf (s.pc.toNat + 2), run := s.run.debit (if pageCrossed word s.x then 3 else 2) }) ∧
    resolve .absoluteY s = (.addr (addrOf (word.toNat + s.y.toNat)),
      { s with pc := addrOf (s.pc.toNat + 2), run := s.run.debit (if pageCrossed word s.y then 3 else 2) }) ∧
    resolve .indirectX s = (.addr (zeroPageWord s.mem ((s.mem.read s.pc).toNat + s.x.toNat)),
      { s with pc := addrOf (s.pc.toNat + 1), run := s.run.debit 4 }) ∧
    resolve .indirectY s = (.addr (addrOf (pointed.toNat + s.y.toNat)),
      { s with pc := addrOf (s.pc.toNat + 1), run := s.run.debit (if pageCrossed pointed s.y then 4 else 3) })

/-- Load(r, mode), for every register and mode, writes the register, Z and N, and nothing else of its own (R200, R140,
R150, 92_eei_decisions.md D6, 92_eei_decisions.md D7, 92_eei_decisions.md D8, 92_eei_decisions.md D18). Derived: it
rests on what spec/92_eei_decisions.md marks as the spec's own choice, D6, D7, D8, D18; see log entries 10, 11. -/
def Obligations.LoadFamilyEffect : Prop :=
  ∀ (r : Reg) (m : Mode) (s : State),
    let result := match (resolve m s).1 with
      | .value v => v
      | .addr ea => s.mem.read ea
    let word := littleEndian (s.mem.read s.pc) (s.mem.read (addrOf (s.pc.toNat + 1)))
    let pointed := zeroPageWord s.mem (s.mem.read s.pc).toNat
    let cross := (m = .absoluteX ∧ pageCrossed word s.x = true) ∨ (m = .absoluteY ∧ pageCrossed word s.y = true) ∨
      (m = .indirectY ∧ pageCrossed pointed s.y = true)
    (loadHandler r m s).getReg r = result ∧
    (∀ q, q ≠ r → (loadHandler r m s).getReg q = s.getReg q) ∧
    (loadHandler r m s).flagZ = decide (result.toNat = 0) ∧
    (loadHandler r m s).flagN = decide (128 ≤ result.toNat) ∧
    (loadHandler r m s).flagC = s.flagC ∧ (loadHandler r m s).flagI = s.flagI ∧ (loadHandler r m s).flagD = s.flagD ∧
    (loadHandler r m s).flagB = s.flagB ∧ (loadHandler r m s).flagV = s.flagV ∧
    (loadHandler r m s).sp = s.sp ∧ (loadHandler r m s).mem = s.mem ∧ (loadHandler r m s).reports = s.reports ∧
    (loadHandler r m s).pc = addrOf (s.pc.toNat + (m.format.length - 1)) ∧
    (loadHandler r m s).run = s.run.debit (m.debits + m.dataReads + if cross then 1 else 0)

/-- LDA_IM loads A with byte 1 itself, sets Z and N, costs 2 cycles (R201, 92_eei_decisions.md D2, 92_eei_decisions.md
D6, notes/assumptions/6.md). Derived: it rests on what spec/92_eei_decisions.md marks as the spec's own choice, D2,
D6; see log entries 6, 10. -/
def Obligations.LdaImLoads : Prop :=
  (∀ s : State, s.Ready → s.mem.read s.pc = 0xA9 →
    step s = exec (.ldaIm (s.mem.read (s.pc + 1))) s) ∧
  (∀ (imm : Byte) (s : State),
    let result := imm
    exec (.ldaIm imm) s = .next
      { s with a := result, flagZ := decide (result.toNat = 0), flagN := decide (128 ≤ result.toNat),
               pc := addrOf (s.pc.toNat + 2), run := s.run.debit 2 })

/-- LDA_ZP loads A with the byte at zero-page address byte 1, sets Z and N, costs 3 cycles (R202, 92_eei_decisions.md
D2, 92_eei_decisions.md D6, notes/assumptions/6.md). Derived: it rests on what spec/92_eei_decisions.md marks as the
spec's own choice, D2, D6; see log entries 6, 10. -/
def Obligations.LdaZpLoads : Prop :=
  (∀ s : State, s.Ready → s.mem.read s.pc = 0xA5 →
    step s = exec (.ldaZp (s.mem.read (s.pc + 1))) s) ∧
  (∀ (zp : Byte) (s : State),
    let result := s.mem.read (zeroPageAddr zp.toNat)
    exec (.ldaZp zp) s = .next
      { s with a := result, flagZ := decide (result.toNat = 0), flagN := decide (128 ≤ result.toNat),
               pc := addrOf (s.pc.toNat + 2), run := s.run.debit 3 })

/-- LDA_ZPX loads A with the byte at (byte 1 + X) mod 256, sets Z and N, costs 4 cycles (R203, 92_eei_decisions.md D2,
92_eei_decisions.md D6, notes/assumptions/6.md). Derived: it rests on what spec/92_eei_decisions.md marks as the
spec's own choice, D2, D6; see log entries 6, 10. -/
def Obligations.LdaZpxLoads : Prop :=
  (∀ s : State, s.Ready → s.mem.read s.pc = 0xB5 →
    step s = exec (.ldaZpx (s.mem.read (s.pc + 1))) s) ∧
  (∀ (zp : Byte) (s : State),
    let result := s.mem.read (zeroPageAddr (zp.toNat + s.x.toNat))
    exec (.ldaZpx zp) s = .next
      { s with a := result, flagZ := decide (result.toNat = 0), flagN := decide (128 ≤ result.toNat),
               pc := addrOf (s.pc.toNat + 2), run := s.run.debit 4 })

/-- LDA_ABS loads A with the byte at the address in bytes 1 and 2, sets Z and N, costs 4 cycles (R204,
92_eei_decisions.md D2, 92_eei_decisions.md D3, 92_eei_decisions.md D6, notes/assumptions/6.md). Derived: it rests
on what spec/92_eei_decisions.md marks as the spec's own choice, D2, D3, D6; see log entries 6, 7, 10. -/
def Obligations.LdaAbsLoads : Prop :=
  (∀ s : State, s.Ready → s.mem.read s.pc = 0xAD →
    step s = exec (.ldaAbs (littleEndian (s.mem.read (s.pc + 1)) (s.mem.read (s.pc + 2)))) s) ∧
  (∀ (abs : Word) (s : State),
    let result := s.mem.read abs
    exec (.ldaAbs abs) s = .next
      { s with a := result, flagZ := decide (result.toNat = 0), flagN := decide (128 ≤ result.toNat),
               pc := addrOf (s.pc.toNat + 3), run := s.run.debit 4 })

/-- LDA_ABSX loads A with the byte at (address + X) mod 65536, sets Z and N, costs 4 cycles, or 5 on a page cross (R205,
92_eei_decisions.md D2, 92_eei_decisions.md D6, 92_eei_decisions.md D7, notes/assumptions/6.md). Derived: it rests
on what spec/92_eei_decisions.md marks as the spec's own choice, D2, D6, D7; see log entries 6, 10. -/
def Obligations.LdaAbsxLoads : Prop :=
  (∀ s : State, s.Ready → s.mem.read s.pc = 0xBD →
    step s = exec (.ldaAbsx (littleEndian (s.mem.read (s.pc + 1)) (s.mem.read (s.pc + 2)))) s) ∧
  (∀ (abs : Word) (s : State),
    let result := s.mem.read (addrOf (abs.toNat + s.x.toNat))
    exec (.ldaAbsx abs) s = .next
      { s with a := result, flagZ := decide (result.toNat = 0), flagN := decide (128 ≤ result.toNat),
               pc := addrOf (s.pc.toNat + 3), run := s.run.debit (if pageCrossed abs s.x then 5 else 4) })

/-- LDA_ABSY loads A with the byte at (address + Y) mod 65536, sets Z and N, costs 4 cycles, or 5 on a page cross (R206,
92_eei_decisions.md D2, 92_eei_decisions.md D3, 92_eei_decisions.md D6, 92_eei_decisions.md D7,
notes/assumptions/6.md). Derived: it rests on what spec/92_eei_decisions.md marks as the spec's own choice, D2, D3,
D6, D7; see log entries 6, 7, 10. -/
def Obligations.LdaAbsyLoads : Prop :=
  (∀ s : State, s.Ready → s.mem.read s.pc = 0xB9 →
    step s = exec (.ldaAbsy (littleEndian (s.mem.read (s.pc + 1)) (s.mem.read (s.pc + 2)))) s) ∧
  (∀ (abs : Word) (s : State),
    let result := s.mem.read (addrOf (abs.toNat + s.y.toNat))
    exec (.ldaAbsy abs) s = .next
      { s with a := result, flagZ := decide (result.toNat = 0), flagN := decide (128 ≤ result.toNat),
               pc := addrOf (s.pc.toNat + 3), run := s.run.debit (if pageCrossed abs s.y then 5 else 4) })

/-- LDA_INDX loads A with the byte at the word at zero-page (byte 1 + X) mod 256, sets Z and N, costs 6 cycles (R207,
92_eei_decisions.md D2, 92_eei_decisions.md D3, 92_eei_decisions.md D6, 92_eei_decisions.md D18, 92_eei_decisions.md
D8, notes/assumptions/6.md). Derived: it rests on what spec/92_eei_decisions.md marks as the spec's own choice, D2,
D3, D6, D18, D8; see log entries 6, 7, 10, 11. -/
def Obligations.LdaIndxLoads : Prop :=
  (∀ s : State, s.Ready → s.mem.read s.pc = 0xA1 →
    step s = exec (.ldaIndx (s.mem.read (s.pc + 1))) s) ∧
  (∀ (zp : Byte) (s : State),
    let result := s.mem.read (zeroPageWord s.mem (zp.toNat + s.x.toNat))
    exec (.ldaIndx zp) s = .next
      { s with a := result, flagZ := decide (result.toNat = 0), flagN := decide (128 ≤ result.toNat),
               pc := addrOf (s.pc.toNat + 2), run := s.run.debit 6 })

/-- LDA_INDY loads A with the byte at (word at zero-page byte 1, + Y) mod 65536, sets Z and N, costs 5 cycles, or 6 on a
page cross (R208, 92_eei_decisions.md D2, 92_eei_decisions.md D3, 92_eei_decisions.md D6, 92_eei_decisions.md D7,
92_eei_decisions.md D18, 92_eei_decisions.md D8, notes/assumptions/6.md). Derived: it rests on what
spec/92_eei_decisions.md marks as the spec's own choice, D2, D3, D6, D7, D18, D8; see log entries 6, 7, 10, 11. -/
def Obligations.LdaIndyLoads : Prop :=
  (∀ s : State, s.Ready → s.mem.read s.pc = 0xB1 →
    step s = exec (.ldaIndy (s.mem.read (s.pc + 1))) s) ∧
  (∀ (zp : Byte) (s : State),
    let result := s.mem.read (addrOf ((zeroPageWord s.mem zp.toNat).toNat + s.y.toNat))
    exec (.ldaIndy zp) s = .next
      { s with a := result, flagZ := decide (result.toNat = 0), flagN := decide (128 ≤ result.toNat),
               pc := addrOf (s.pc.toNat + 2), run := s.run.debit (if pageCrossed (zeroPageWord s.mem zp.toNat) s.y then 6 else 5) })

/-- LDX_IM loads X with byte 1 itself, sets Z and N, costs 2 cycles (R209, 92_eei_decisions.md D2, 92_eei_decisions.md
D3, 92_eei_decisions.md D6, notes/assumptions/6.md). Derived: it rests on what spec/92_eei_decisions.md marks as the
spec's own choice, D2, D3, D6; see log entries 6, 7, 10. -/
def Obligations.LdxImLoads : Prop :=
  (∀ s : State, s.Ready → s.mem.read s.pc = 0xA2 →
    step s = exec (.ldxIm (s.mem.read (s.pc + 1))) s) ∧
  (∀ (imm : Byte) (s : State),
    let result := imm
    exec (.ldxIm imm) s = .next
      { s with x := result, flagZ := decide (result.toNat = 0), flagN := decide (128 ≤ result.toNat),
               pc := addrOf (s.pc.toNat + 2), run := s.run.debit 2 })

/-- LDX_ZP loads X with the byte at zero-page address byte 1, sets Z and N, costs 3 cycles (R210, 92_eei_decisions.md
D2, 92_eei_decisions.md D3, 92_eei_decisions.md D6, notes/assumptions/6.md). Derived: it rests on what
spec/92_eei_decisions.md marks as the spec's own choice, D2, D3, D6; see log entries 6, 7, 10. -/
def Obligations.LdxZpLoads : Prop :=
  (∀ s : State, s.Ready → s.mem.read s.pc = 0xA6 →
    step s = exec (.ldxZp (s.mem.read (s.pc + 1))) s) ∧
  (∀ (zp : Byte) (s : State),
    let result := s.mem.read (zeroPageAddr zp.toNat)
    exec (.ldxZp zp) s = .next
      { s with x := result, flagZ := decide (result.toNat = 0), flagN := decide (128 ≤ result.toNat),
               pc := addrOf (s.pc.toNat + 2), run := s.run.debit 3 })

/-- LDX_ZPY loads X with the byte at (byte 1 + Y) mod 256, sets Z and N, costs 4 cycles (R211, 92_eei_decisions.md D2,
92_eei_decisions.md D3, 92_eei_decisions.md D6, notes/assumptions/6.md). Derived: it rests on what
spec/92_eei_decisions.md marks as the spec's own choice, D2, D3, D6; see log entries 6, 7, 10. -/
def Obligations.LdxZpyLoads : Prop :=
  (∀ s : State, s.Ready → s.mem.read s.pc = 0xB6 →
    step s = exec (.ldxZpy (s.mem.read (s.pc + 1))) s) ∧
  (∀ (zp : Byte) (s : State),
    let result := s.mem.read (zeroPageAddr (zp.toNat + s.y.toNat))
    exec (.ldxZpy zp) s = .next
      { s with x := result, flagZ := decide (result.toNat = 0), flagN := decide (128 ≤ result.toNat),
               pc := addrOf (s.pc.toNat + 2), run := s.run.debit 4 })

/-- LDX_ABS loads X with the byte at the address in bytes 1 and 2, sets Z and N, costs 4 cycles (R212,
92_eei_decisions.md D2, 92_eei_decisions.md D3, 92_eei_decisions.md D6, notes/assumptions/6.md). Derived: it rests
on what spec/92_eei_decisions.md marks as the spec's own choice, D2, D3, D6; see log entries 6, 7, 10. -/
def Obligations.LdxAbsLoads : Prop :=
  (∀ s : State, s.Ready → s.mem.read s.pc = 0xAE →
    step s = exec (.ldxAbs (littleEndian (s.mem.read (s.pc + 1)) (s.mem.read (s.pc + 2)))) s) ∧
  (∀ (abs : Word) (s : State),
    let result := s.mem.read abs
    exec (.ldxAbs abs) s = .next
      { s with x := result, flagZ := decide (result.toNat = 0), flagN := decide (128 ≤ result.toNat),
               pc := addrOf (s.pc.toNat + 3), run := s.run.debit 4 })

/-- LDX_ABSY loads X with the byte at (address + Y) mod 65536, sets Z and N, costs 4 cycles, or 5 on a page cross (R213,
92_eei_decisions.md D2, 92_eei_decisions.md D3, 92_eei_decisions.md D6, 92_eei_decisions.md D7,
notes/assumptions/6.md). Derived: it rests on what spec/92_eei_decisions.md marks as the spec's own choice, D2, D3,
D6, D7; see log entries 6, 7, 10. -/
def Obligations.LdxAbsyLoads : Prop :=
  (∀ s : State, s.Ready → s.mem.read s.pc = 0xBE →
    step s = exec (.ldxAbsy (littleEndian (s.mem.read (s.pc + 1)) (s.mem.read (s.pc + 2)))) s) ∧
  (∀ (abs : Word) (s : State),
    let result := s.mem.read (addrOf (abs.toNat + s.y.toNat))
    exec (.ldxAbsy abs) s = .next
      { s with x := result, flagZ := decide (result.toNat = 0), flagN := decide (128 ≤ result.toNat),
               pc := addrOf (s.pc.toNat + 3), run := s.run.debit (if pageCrossed abs s.y then 5 else 4) })

/-- LDY_IM loads Y with byte 1 itself, sets Z and N, costs 2 cycles (R214, 92_eei_decisions.md D2, 92_eei_decisions.md
D3, 92_eei_decisions.md D6, notes/assumptions/6.md). Derived: it rests on what spec/92_eei_decisions.md marks as the
spec's own choice, D2, D3, D6; see log entries 6, 7, 10. -/
def Obligations.LdyImLoads : Prop :=
  (∀ s : State, s.Ready → s.mem.read s.pc = 0xA0 →
    step s = exec (.ldyIm (s.mem.read (s.pc + 1))) s) ∧
  (∀ (imm : Byte) (s : State),
    let result := imm
    exec (.ldyIm imm) s = .next
      { s with y := result, flagZ := decide (result.toNat = 0), flagN := decide (128 ≤ result.toNat),
               pc := addrOf (s.pc.toNat + 2), run := s.run.debit 2 })

/-- LDY_ZP loads Y with the byte at zero-page address byte 1, sets Z and N, costs 3 cycles (R215, 92_eei_decisions.md
D2, 92_eei_decisions.md D3, 92_eei_decisions.md D6, notes/assumptions/6.md). Derived: it rests on what
spec/92_eei_decisions.md marks as the spec's own choice, D2, D3, D6; see log entries 6, 7, 10. -/
def Obligations.LdyZpLoads : Prop :=
  (∀ s : State, s.Ready → s.mem.read s.pc = 0xA4 →
    step s = exec (.ldyZp (s.mem.read (s.pc + 1))) s) ∧
  (∀ (zp : Byte) (s : State),
    let result := s.mem.read (zeroPageAddr zp.toNat)
    exec (.ldyZp zp) s = .next
      { s with y := result, flagZ := decide (result.toNat = 0), flagN := decide (128 ≤ result.toNat),
               pc := addrOf (s.pc.toNat + 2), run := s.run.debit 3 })

/-- LDY_ZPX loads Y with the byte at (byte 1 + X) mod 256, sets Z and N, costs 4 cycles (R216, 92_eei_decisions.md D2,
92_eei_decisions.md D3, 92_eei_decisions.md D6, notes/assumptions/6.md). Derived: it rests on what
spec/92_eei_decisions.md marks as the spec's own choice, D2, D3, D6; see log entries 6, 7, 10. -/
def Obligations.LdyZpxLoads : Prop :=
  (∀ s : State, s.Ready → s.mem.read s.pc = 0xB4 →
    step s = exec (.ldyZpx (s.mem.read (s.pc + 1))) s) ∧
  (∀ (zp : Byte) (s : State),
    let result := s.mem.read (zeroPageAddr (zp.toNat + s.x.toNat))
    exec (.ldyZpx zp) s = .next
      { s with y := result, flagZ := decide (result.toNat = 0), flagN := decide (128 ≤ result.toNat),
               pc := addrOf (s.pc.toNat + 2), run := s.run.debit 4 })

/-- LDY_ABS loads Y with the byte at the address in bytes 1 and 2, sets Z and N, costs 4 cycles (R217,
92_eei_decisions.md D2, 92_eei_decisions.md D3, 92_eei_decisions.md D6, notes/assumptions/6.md). Derived: it rests
on what spec/92_eei_decisions.md marks as the spec's own choice, D2, D3, D6; see log entries 6, 7, 10. -/
def Obligations.LdyAbsLoads : Prop :=
  (∀ s : State, s.Ready → s.mem.read s.pc = 0xAC →
    step s = exec (.ldyAbs (littleEndian (s.mem.read (s.pc + 1)) (s.mem.read (s.pc + 2)))) s) ∧
  (∀ (abs : Word) (s : State),
    let result := s.mem.read abs
    exec (.ldyAbs abs) s = .next
      { s with y := result, flagZ := decide (result.toNat = 0), flagN := decide (128 ≤ result.toNat),
               pc := addrOf (s.pc.toNat + 3), run := s.run.debit 4 })

/-- LDY_ABSX loads Y with the byte at (address + X) mod 65536, sets Z and N, costs 4 cycles, or 5 on a page cross (R218,
92_eei_decisions.md D2, 92_eei_decisions.md D3, 92_eei_decisions.md D6, 92_eei_decisions.md D7,
notes/assumptions/6.md). Derived: it rests on what spec/92_eei_decisions.md marks as the spec's own choice, D2, D3,
D6, D7; see log entries 6, 7, 10. -/
def Obligations.LdyAbsxLoads : Prop :=
  (∀ s : State, s.Ready → s.mem.read s.pc = 0xBC →
    step s = exec (.ldyAbsx (littleEndian (s.mem.read (s.pc + 1)) (s.mem.read (s.pc + 2)))) s) ∧
  (∀ (abs : Word) (s : State),
    let result := s.mem.read (addrOf (abs.toNat + s.x.toNat))
    exec (.ldyAbsx abs) s = .next
      { s with y := result, flagZ := decide (result.toNat = 0), flagN := decide (128 ≤ result.toNat),
               pc := addrOf (s.pc.toNat + 3), run := s.run.debit (if pageCrossed abs s.x then 5 else 4) })

/-- JSR pushes the address of its last byte little-endian at 0x0100+SP, adds 2 to SP, jumps, costs 6 cycles (R230,
92_eei_decisions.md D2, 92_eei_decisions.md D5, 92_eei_decisions.md D6, 92_eei_decisions.md D19,
notes/assumptions/6.md). Derived: it rests on what spec/92_eei_decisions.md marks as the spec's own choice, D2, D5,
D6, D19; see log entries 6, 9, 10. -/
def Obligations.JsrCalls : Prop :=
  (∀ s : State, s.Ready → s.mem.read s.pc = 0x20 → step s = exec (.jsr (littleEndian (s.mem.read (s.pc + 1)) (s.mem.read (s.pc + 2)))) s) ∧
  (∀ (target : Word) (s : State),
    ∃ m, exec (.jsr target) s = .next
        { s with pc := target, sp := BitVec.ofNat 8 ((s.sp.toNat + 2) % 256), run := s.run.debit 6, mem := m } ∧
      m.read (addrOf (0x0100 + s.sp.toNat)) = BitVec.ofNat 8 ((s.pc.toNat + 2) % 65536 % 256) ∧
      m.read (addrOf (0x0101 + s.sp.toNat)) = BitVec.ofNat 8 ((s.pc.toNat + 2) % 65536 / 256) ∧
      ∀ addr, addr ≠ addrOf (0x0100 + s.sp.toNat) → addr ≠ addrOf (0x0101 + s.sp.toNat) →
        m.read addr = s.mem.read addr)

/-- The stack grows upward: a second JSR writes 2 higher and leaves the first return address in place (R230, R231, R232,
92_eei_decisions.md D5, 92_eei_decisions.md D6). Derived: it rests on what spec/92_eei_decisions.md marks as the
spec's own choice, D5, D6; see log entries 9, 10. -/
def Obligations.SuccessiveCallsStackUpward : Prop :=
  ∀ (p q : Word) (s t u : State), exec (.jsr p) s = .next t → exec (.jsr q) t = .next u →
    u.pc = q ∧ u.sp.toNat = (s.sp.toNat + 4) % 256 ∧
    littleEndian (u.mem.read (addrOf (0x0100 + s.sp.toNat))) (u.mem.read (addrOf (0x0101 + s.sp.toNat))) = s.pc + 2 ∧
    littleEndian (u.mem.read (addrOf (0x0100 + (s.sp.toNat + 2) % 256)))
      (u.mem.read (addrOf (0x0101 + (s.sp.toNat + 2) % 256))) = p + 2

/-- An unknown opcode is reported with its address, pc advances by 1, 1 cycle is debited, nothing else (R105, R174,
92_eei_decisions.md D2, 92_eei_decisions.md D3, 92_eei_decisions.md D6, 92_eei_decisions.md D12,
notes/assumptions/6.md). Derived: it rests on what spec/92_eei_decisions.md marks as the spec's own choice, D2, D3,
D6, D12; see log entries 6, 7, 10, 13. -/
def Obligations.UnknownOpcodeIsReportedAndSkipped : Prop :=
  (∀ s : State, s.Ready → s.mem.read s.pc ∉ ([0xAD, 0xBD, 0xB9, 0xAE, 0xBE, 0xAC, 0xBC, 0x20, 0xA9, 0xA5, 0xB5, 0xA1, 0xB1, 0xA2, 0xA6, 0xB6, 0xA0, 0xA4, 0xB4] : List Byte) →
    step s = .next { s with pc := addrOf (s.pc.toNat + 1), run := s.run.debit 1,
                             reports := s.reports ++ [(s.pc, s.mem.read s.pc)] }) ∧
  ((List.range 256).filter fun n => (lookup dispatchTable (BitVec.ofNat 8 n)).isNone).length = 237 ∧
  lookup dispatchTable 0x00 = none

/-- An instruction changes no register, flag, byte or report that its rule does not name (R34, R44, R200, R230,
92_eei_decisions.md D5). Derived: it rests on what spec/92_eei_decisions.md marks as the spec's own choice, D5; see
log entry 9. -/
def Obligations.InstructionsChangeOnlyWhatTheyName : Prop :=
  ∀ (i : Instr) (s t : State), exec i s = .next t →
    (∀ r, destination i ≠ some r → t.getReg r = s.getReg r) ∧
    (t.flagC = s.flagC ∧ t.flagI = s.flagI ∧ t.flagD = s.flagD ∧ t.flagB = s.flagB ∧ t.flagV = s.flagV) ∧
    t.reports = s.reports ∧
    (destination i ≠ none → t.sp = s.sp ∧ ∀ addr, t.mem.read addr = s.mem.read addr) ∧
    (destination i = none → t.flagZ = s.flagZ ∧ t.flagN = s.flagN ∧
      ∀ addr, addr ≠ addrOf (0x0100 + s.sp.toNat) → addr ≠ addrOf (0x0101 + s.sp.toNat) →
        t.mem.read addr = s.mem.read addr)

/-- No step changes C, I, D, B or V, and Z and N change only when the step runs a load (R44). The spec states it. -/
def Obligations.OnlyLoadsTouchFlagsAndOnlyZN : Prop :=
  ∀ s t : State, step s = .next t →
    (t.flagC = s.flagC ∧ t.flagI = s.flagI ∧ t.flagD = s.flagD ∧ t.flagB = s.flagB ∧ t.flagV = s.flagV) ∧
    (¬ (s.Ready ∧ destinationAt s ≠ none) → t.flagZ = s.flagZ ∧ t.flagN = s.flagN)

/-- Every load sets Z and N from the byte it wrote, and no instruction reads Z or N (R41, R42). The spec states it. -/
def Obligations.LoadsSetZAndNFromTheirResult : Prop :=
  (∀ (i : Instr) (r : Reg) (s : State), destination i = some r → ∃ t, exec i s = .next t ∧
    t.flagZ = decide ((t.getReg r).toNat = 0) ∧ t.flagN = decide (128 ≤ (t.getReg r).toNat)) ∧
  (∀ (s : State) (z n : Bool), step { s with flagZ := z, flagN := n } =
    mapNext (fun t => if s.Ready ∧ destinationAt s ≠ none then t else { t with flagZ := z, flagN := n }) (step s)) ∧
  State.reset.flagZ = false ∧ State.reset.flagN = false

/-- C, I, D, B and V are neither written nor read by any step: they pass through unchanged (R43, 92_eei_decisions.md
D11, 92_eei_decisions.md D17). Derived: it rests on what spec/92_eei_decisions.md marks as the spec's own choice,
D11, D17; see log entry 14. -/
def Obligations.InertFlagsAffectNothing : Prop :=
  (∀ (s : State) (c i d b v : Bool),
    step { s with flagC := c, flagI := i, flagD := d, flagB := b, flagV := v } =
      mapNext (fun t => { t with flagC := c, flagI := i, flagD := d, flagB := b, flagV := v }) (step s)) ∧
  (∀ s : State, (hostReset s).flagC = false ∧ (hostReset s).flagI = false ∧ (hostReset s).flagD = false ∧
    (hostReset s).flagB = false ∧ (hostReset s).flagV = false) ∧
  (∀ (s : State) (f : Bool), (applyPreload (.flagC f) s).flagC = f ∧ (applyPreload (.flagI f) s).flagI = f ∧
    (applyPreload (.flagD f) s).flagD = f ∧ (applyPreload (.flagB f) s).flagB = f ∧ (applyPreload (.flagV f) s).flagV = f)

/-- A is written by LDA only, and no step reads it (R31). The spec states it. -/
def Obligations.AccumulatorIsWrittenByLdaAndReadByNothing : Prop :=
  (∀ s t : State, step s = .next t → ¬ (s.Ready ∧ destinationAt s = some .a) → t.a = s.a) ∧
  (∀ (s : State) (v : Byte), step { s with a := v } =
    mapNext (fun t => if s.Ready ∧ destinationAt s = some .a then t else { t with a := v }) (step s)) ∧
  (∀ s : State, (hostReset s).a = 0x00)

/-- SP is read and written by JSR only, which adds 2 modulo 256; a stack access goes to 0x0100+SP (R38, R134,
92_eei_decisions.md D2, 92_eei_decisions.md D5, notes/assumptions/6.md). Derived: it rests on what
spec/92_eei_decisions.md marks as the spec's own choice, D2, D5; see log entries 6, 9. -/
def Obligations.StackPointerIsJsrsAlone : Prop :=
  (∀ sp : Byte, (stackAddr sp).toNat = 0x0100 + sp.toNat ∧ (spAdvance sp).toNat = (sp.toNat + 2) % 256) ∧
  (∀ (s : State) (v : Byte), s.mem.read s.pc ≠ 0x20 →
    step { s with sp := v } = mapNext (fun t => { t with sp := v }) (step s)) ∧
  (∀ (target : Word) (s : State), ∃ t, exec (.jsr target) s = .next t ∧ t.sp.toNat = (s.sp.toNat + 2) % 256) ∧
  (∀ (s : State) (v : Byte), (hostReset s).sp = 0x00 ∧ (applyPreload (.sp v) s).sp = v)

/-- The report log only grows at its end, by unknown opcodes, and no step or reset depends on it (R48,
92_eei_decisions.md D2, 92_eei_decisions.md D3, 92_eei_decisions.md D12, notes/assumptions/6.md,
notes/assumptions/13.md). Derived: it rests on what spec/92_eei_decisions.md marks as the spec's own choice, D2, D3,
D12; see log entries 6, 7, 13. -/
def Obligations.ReportsAreAppendOnlyAndUnread : Prop :=
  (∀ s t : State, step s = .next t → ∃ new, t.reports = s.reports ++ new ∧ new.length ≤ 1) ∧
  (∀ s t : State, step s = .next t → ¬ (s.Ready ∧ decodeAt s = none) → t.reports = s.reports) ∧
  (∀ (s : State) (earlier : List (Word × Byte)), step { s with reports := earlier ++ s.reports } =
    mapNext (fun t => { t with reports := earlier ++ t.reports }) (step s)) ∧
  (∀ s t : State, step s = .next t → s.Ready → s.mem.read s.pc ∉ ([0xAD, 0xBD, 0xB9, 0xAE, 0xBE, 0xAC, 0xBC, 0x20, 0xA9, 0xA5, 0xB5, 0xA1, 0xB1, 0xA2, 0xA6, 0xB6, 0xA0, 0xA4, 0xB4] : List Byte) →
    t.reports = s.reports ++ [(s.pc, s.mem.read s.pc)]) ∧
  (∀ s : State, (hostReset s).reports = s.reports)

/-- A load advances pc by 2 or 3 by its mode, an unknown opcode by 1, and JSR sets pc to its target (R36,
92_eei_decisions.md D2, 92_eei_decisions.md D3, 92_eei_decisions.md D6, notes/assumptions/6.md). Derived: it rests
on what spec/92_eei_decisions.md marks as the spec's own choice, D2, D3, D6; see log entries 6, 7, 10. -/
def Obligations.PcAdvancesByTheLength : Prop :=
  (∀ (i : Instr) (s t : State) (r : Reg) (m : Mode), i.row.op = .load r m → exec i s = .next t →
    t.pc = addrOf (s.pc.toNat + if m = .absolute ∨ m = .absoluteX ∨ m = .absoluteY then 3 else 2)) ∧
  (∀ (target : Word) (s t : State), exec (.jsr target) s = .next t → t.pc = target) ∧
  (∀ s t : State, s.Ready → s.mem.read s.pc ∉ ([0xAD, 0xBD, 0xB9, 0xAE, 0xBE, 0xAC, 0xBC, 0x20, 0xA9, 0xA5, 0xB5, 0xA1, 0xB1, 0xA2, 0xA6, 0xB6, 0xA0, 0xA4, 0xB4] : List Byte) → step s = .next t →
    t.pc = addrOf (s.pc.toNat + 1))

/-- SP stays even unless the host writes an odd value, so both bytes of a call lie in the stack page (R39,
92_eei_decisions.md D5). Derived: it rests on what spec/92_eei_decisions.md marks as the spec's own choice, D5; see
log entry 9. -/
def Obligations.StackPointerStaysEven : Prop :=
  State.reset.SpEven ∧
  (∀ s t : State, s.SpEven → step s = .next t → t.SpEven) ∧
  (∀ (table : List Row) (s t : State) (call : HostCall) (reply : HostReply), s.SpEven →
    (∀ v : Byte, call = .preload (.sp v) → v.toNat % 2 = 0) →
    hostCall table (some s) call = .next (some t, reply) → t.SpEven) ∧
  (∀ s : State, s.SpEven → 0x0100 ≤ (stackAddr s.sp).toNat ∧ (stackAddr s.sp + 1).toNat ≤ 0x01FF ∧
    (stackAddr s.sp + 1).toNat = (stackAddr s.sp).toNat + 1)

/-- Every step keeps the cycle counter at -5 or above: an overrun is at most the last cost minus 1 (R45, R100, R172,
92_eei_decisions.md D9, 92_eei_decisions.md D18). Derived: it rests on what spec/92_eei_decisions.md marks as the
spec's own choice, D9, D18; see log entries 11, 12. -/
def Obligations.CounterEndsAtMostFiveBelowZero : Prop :=
  (∀ s t : State, s.CounterBounded → step s = .next t → t.CounterBounded) ∧
  (∀ (s : State) (remaining : Int), s.run = .running remaining → 0 < remaining →
    ∃ (t : State) (cost : Nat), step s = .next t ∧ 1 ≤ cost ∧ cost ≤ 6 ∧ t.run = .running (remaining - cost) ∧
      -((cost : Int) - 1) ≤ remaining - cost)

/-- An iteration costs its row's base cycles plus one on a page cross, and one for an unknown opcode (R103, R176, R413,
92_eei_decisions.md D7, 92_eei_decisions.md D8, 92_eei_decisions.md D18). Derived: it rests on what
spec/92_eei_decisions.md marks as the spec's own choice, D7, D8, D18; see log entries 10, 11. -/
def Obligations.IterationCostIsTheTablesColumns : Prop :=
  ∀ (s : State) (remaining : Int), s.run = .running remaining → 0 < remaining →
    ∃ t, step s = .next t ∧ t.run = .running (remaining - match decodeAt s with
      | some i => ((i.row.baseCycles + if crosses i s then 1 else 0 : Nat) : Int)
      | none   => 1)

/-- Only JSR writes memory, only its two stack bytes, and the next fetch of a written byte sees it (R411,
92_eei_decisions.md D2, 92_eei_decisions.md D5, 92_eei_decisions.md D15, notes/assumptions/6.md,
notes/assumptions/9.md). Derived: it rests on what spec/92_eei_decisions.md marks as the spec's own choice, D2, D5,
D15; see log entries 6, 9. -/
def Obligations.CpuWritesOnlyTheStackBytes : Prop :=
  (∀ (s t : State) (addr : Word), step s = .next t → t.mem.read addr ≠ s.mem.read addr →
    s.Ready ∧ s.mem.read s.pc = 0x20 ∧
      (addr = addrOf (0x0100 + s.sp.toNat) ∨ addr = addrOf (0x0101 + s.sp.toNat))) ∧
  (∀ (s : State) (addr : Word) (v : Byte), (fetchByte { s with pc := addr, mem := s.mem.write addr v }).1 = v)

/-- A ready machine whose bytes at pc decode to an instruction runs exactly that instruction (R160, R161, R171,
92_eei_decisions.md D1, 92_eei_decisions.md D2). Derived: it rests on what spec/92_eei_decisions.md marks as the
spec's own choice, D1, D2; see log entry 6. -/
def Obligations.StepRunsTheDecodedInstruction : Prop :=
  ∀ (s : State) (i : Instr) (rest : List Byte), s.Ready →
    decode [s.mem.read s.pc, s.mem.read (s.pc + 1), s.mem.read (s.pc + 2)] = .instr i rest → step s = exec i s

/-- A ready machine with the encoding of an instruction at pc runs it, wherever pc stands (R90, R91, R97, R171,
92_eei_decisions.md D2, 92_eei_decisions.md D6, notes/assumptions/5.md). Derived: it rests on what
spec/92_eei_decisions.md marks as the spec's own choice, D2, D6; see log entries 5, 6, 10. -/
def Obligations.EncodedInstructionAtPcRuns : Prop :=
  (∀ (s : State) (i : Instr), s.Ready →
    (∀ k b, (encode i)[k]? = some b → s.mem.read (s.pc + BitVec.ofNat 16 k) = b) → step s = exec i s) ∧
  (∀ (s : State) (nbits w : Nat) (i : Instr), decodeTableWord nbits w = some i →
    step (s.withFetchWord nbits w) = exec i (s.withFetchWord nbits w))

/-- A step of a ready machine is one iteration of the spec's loop, fetching byte by byte (R171, R170, R161,
92_eei_decisions.md D1, 92_eei_decisions.md D2, 92_eei_decisions.md D3, notes/assumptions/6.md). Derived: it rests
on what spec/92_eei_decisions.md marks as the spec's own choice, D1, D2, D3; see log entries 6, 7. -/
def Obligations.StepIsTheSpecsIteration : Prop :=
  ∀ s : State, s.Ready → step s = .next (iterate dispatchTable s)

/-- Every step of every state goes on: there is no fault, no trap and no refusal (R300, R301, R304, 92_eei_decisions.md
D20, 92_eei_decisions.md D21). Derived: it rests on what spec/92_eei_decisions.md marks as the spec's own choice,
D20, D21. -/
def Obligations.EveryStepHasOneSuccessor : Prop :=
  (∀ s : State, StepCompletes s) ∧ (∀ (i : Instr) (s : State), ∃ t, exec i s = .next t)

/-- An idle machine keeps its whole state; a spent budget makes the next step end the call and nothing else (R170, R178,
R313, notes/assumptions/4.md, 92_eei_decisions.md D10). Derived: it rests on what spec/92_eei_decisions.md marks as
the spec's own choice, D10; see log entries 4, 12. -/
def Obligations.IdleHoldsAndTheLoopExits : Prop :=
  (∀ s : State, s.run = .idle → step s = .next s) ∧
  (∀ (s : State) (remaining : Int), s.run = .running remaining → remaining ≤ 0 →
    step s = .next { s with run := .idle })

/-- execute(0) changes nothing and returns 0; execute(1) runs exactly one iteration and returns its cost (R173, R312,
R170, R176, 92_eei_decisions.md D4, 92_eei_decisions.md D10). Derived: it rests on what spec/92_eei_decisions.md
marks as the spec's own choice, D4, D10; see log entries 7, 12. -/
def Obligations.ExecuteZeroDoesNothingAndOneRunsOneIteration : Prop :=
  ∀ (table : List Row) (s : State), s.run = .idle →
    execute table 0 s = .next (0, s) ∧
    ∃ cost : Nat, 1 ≤ cost ∧ (iterate table (beginCall 1 s)).run = .running (1 - cost) ∧
      execute table 1 s = .next ((cost : Int), { iterate table (beginCall 1 s) with run := .idle })

/-- An execute call equals stepping the machine until it is idle again (R170, R171, R177, 92_eei_decisions.md D10,
notes/assumptions/4.md). Derived: it rests on what spec/92_eei_decisions.md marks as the spec's own choice, D10; see
log entries 4, 12. -/
def Obligations.ExecuteIsRepeatedStepping : Prop :=
  ∀ (budget : Nat) (s : State), s.run = .idle →
    ∃ (cycles : Int) (t : State), execute dispatchTable budget s = .next (cycles, t) ∧ t.run = .idle ∧
      Host.Core.run core (budget + 1) (beginCall budget s) = .next t

/-- The return value is budget - remaining, at least the budget and at most budget + k - 1 (R175, 92_eei_decisions.md
D9, 92_eei_decisions.md D10, notes/assumptions/4.md). Derived: it rests on what spec/92_eei_decisions.md marks as
the spec's own choice, D9, D10; see log entries 4, 12. -/
def Obligations.ExecuteReturnsWithinTheLastCost : Prop :=
  (∀ (budget : Nat) (s : State), s.run = .idle → 0 < budget →
    ∃ (cycles remaining : Int) (k j : Nat) (u w : State),
      Host.Core.run core j (beginCall budget s) = .next u ∧ u.run = .running remaining ∧ 0 < remaining ∧
      step u = .next w ∧ w.run = .running (remaining - k) ∧ remaining - k ≤ 0 ∧
      execute dispatchTable budget s = .next (cycles, { w with run := .idle }) ∧
      cycles = budget - (remaining - k) ∧ (budget : Int) ≤ cycles ∧ cycles ≤ budget + k - 1) ∧
  (∀ (budget : Nat) (s : State), s.run = .idle →
    ∃ (remaining : Int) (j : Nat) (w : State),
      Host.Core.run core j (beginCall budget s) = .next w ∧ w.run = .running remaining ∧ remaining ≤ 0 ∧
      execute dispatchTable budget s = .next (budget - remaining, { w with run := .idle }))

/-- Every iteration debits a cycle, so a call with budget n runs at most n iterations and returns (R177,
92_eei_decisions.md D4, 92_eei_decisions.md D9). Derived: it rests on what spec/92_eei_decisions.md marks as the
spec's own choice, D4, D9; see log entries 7, 12. -/
def Obligations.EveryCallTerminatesWithinItsBudget : Prop :=
  (∀ (table : List Row) (s : State) (remaining : Int), s.run = .running remaining →
    ∃ after, (iterate table s).run = .running after ∧ after + 1 ≤ remaining) ∧
  (∀ (table : List Row) (budget : Nat) (s : State),
    (whileLoop table budget (beginCall budget s)).run.live = false ∧
    ∀ more, whileLoop table (budget + more) (beginCall budget s) = whileLoop table budget (beginCall budget s)) ∧
  (∀ (table : List Row) (budget : Nat) (s : State), s.run = .idle →
    ∃ cycles t, execute table budget s = .next (cycles, t) ∧ t.run = .idle)
end

