-- ==== Sys2Proof/Laws/State.lean ====
section
/-! SUPPORT. What each named update does to each field of the state, so that no proof unfolds a record update. -/

namespace Sys2Proof.Machine

/-! ## State.debit -/

@[simp] theorem State.debit_pc (s : State) (n : Nat) : (s.debit n).pc = s.pc := rfl
@[simp] theorem State.debit_sp (s : State) (n : Nat) : (s.debit n).sp = s.sp := rfl
@[simp] theorem State.debit_a (s : State) (n : Nat) : (s.debit n).a = s.a := rfl
@[simp] theorem State.debit_x (s : State) (n : Nat) : (s.debit n).x = s.x := rfl
@[simp] theorem State.debit_y (s : State) (n : Nat) : (s.debit n).y = s.y := rfl
@[simp] theorem State.debit_flagC (s : State) (n : Nat) : (s.debit n).flagC = s.flagC := rfl
@[simp] theorem State.debit_flagZ (s : State) (n : Nat) : (s.debit n).flagZ = s.flagZ := rfl
@[simp] theorem State.debit_flagI (s : State) (n : Nat) : (s.debit n).flagI = s.flagI := rfl
@[simp] theorem State.debit_flagD (s : State) (n : Nat) : (s.debit n).flagD = s.flagD := rfl
@[simp] theorem State.debit_flagB (s : State) (n : Nat) : (s.debit n).flagB = s.flagB := rfl
@[simp] theorem State.debit_flagV (s : State) (n : Nat) : (s.debit n).flagV = s.flagV := rfl
@[simp] theorem State.debit_flagN (s : State) (n : Nat) : (s.debit n).flagN = s.flagN := rfl
@[simp] theorem State.debit_run (s : State) (n : Nat) : (s.debit n).run = s.run.debit n := rfl
@[simp] theorem State.debit_reports (s : State) (n : Nat) : (s.debit n).reports = s.reports := rfl
@[simp] theorem State.debit_mem (s : State) (n : Nat) : (s.debit n).mem = s.mem := rfl

/-! ## State.fetched -/

@[simp] theorem State.fetched_pc (s : State) (n : Nat) : (s.fetched n).pc = s.pc + BitVec.ofNat 16 n := rfl
@[simp] theorem State.fetched_sp (s : State) (n : Nat) : (s.fetched n).sp = s.sp := rfl
@[simp] theorem State.fetched_a (s : State) (n : Nat) : (s.fetched n).a = s.a := rfl
@[simp] theorem State.fetched_x (s : State) (n : Nat) : (s.fetched n).x = s.x := rfl
@[simp] theorem State.fetched_y (s : State) (n : Nat) : (s.fetched n).y = s.y := rfl
@[simp] theorem State.fetched_flagC (s : State) (n : Nat) : (s.fetched n).flagC = s.flagC := rfl
@[simp] theorem State.fetched_flagZ (s : State) (n : Nat) : (s.fetched n).flagZ = s.flagZ := rfl
@[simp] theorem State.fetched_flagI (s : State) (n : Nat) : (s.fetched n).flagI = s.flagI := rfl
@[simp] theorem State.fetched_flagD (s : State) (n : Nat) : (s.fetched n).flagD = s.flagD := rfl
@[simp] theorem State.fetched_flagB (s : State) (n : Nat) : (s.fetched n).flagB = s.flagB := rfl
@[simp] theorem State.fetched_flagV (s : State) (n : Nat) : (s.fetched n).flagV = s.flagV := rfl
@[simp] theorem State.fetched_flagN (s : State) (n : Nat) : (s.fetched n).flagN = s.flagN := rfl
@[simp] theorem State.fetched_run (s : State) (n : Nat) : (s.fetched n).run = s.run.debit n := rfl
@[simp] theorem State.fetched_reports (s : State) (n : Nat) : (s.fetched n).reports = s.reports := rfl
@[simp] theorem State.fetched_mem (s : State) (n : Nat) : (s.fetched n).mem = s.mem := rfl

/-! ## State.setNZ -/

@[simp] theorem State.setNZ_pc (s : State) (v : Byte) : (s.setNZ v).pc = s.pc := rfl
@[simp] theorem State.setNZ_sp (s : State) (v : Byte) : (s.setNZ v).sp = s.sp := rfl
@[simp] theorem State.setNZ_a (s : State) (v : Byte) : (s.setNZ v).a = s.a := rfl
@[simp] theorem State.setNZ_x (s : State) (v : Byte) : (s.setNZ v).x = s.x := rfl
@[simp] theorem State.setNZ_y (s : State) (v : Byte) : (s.setNZ v).y = s.y := rfl
@[simp] theorem State.setNZ_flagC (s : State) (v : Byte) : (s.setNZ v).flagC = s.flagC := rfl
@[simp] theorem State.setNZ_flagZ (s : State) (v : Byte) : (s.setNZ v).flagZ = (v == 0x00) := rfl
@[simp] theorem State.setNZ_flagI (s : State) (v : Byte) : (s.setNZ v).flagI = s.flagI := rfl
@[simp] theorem State.setNZ_flagD (s : State) (v : Byte) : (s.setNZ v).flagD = s.flagD := rfl
@[simp] theorem State.setNZ_flagB (s : State) (v : Byte) : (s.setNZ v).flagB = s.flagB := rfl
@[simp] theorem State.setNZ_flagV (s : State) (v : Byte) : (s.setNZ v).flagV = s.flagV := rfl
@[simp] theorem State.setNZ_flagN (s : State) (v : Byte) : (s.setNZ v).flagN = v.getLsbD 7 := rfl
@[simp] theorem State.setNZ_run (s : State) (v : Byte) : (s.setNZ v).run = s.run := rfl
@[simp] theorem State.setNZ_reports (s : State) (v : Byte) : (s.setNZ v).reports = s.reports := rfl
@[simp] theorem State.setNZ_mem (s : State) (v : Byte) : (s.setNZ v).mem = s.mem := rfl

/-! ## State.report -/

@[simp] theorem State.report_pc (s : State) (addr : Word) (b : Byte) : (s.report addr b).pc = s.pc := rfl
@[simp] theorem State.report_sp (s : State) (addr : Word) (b : Byte) : (s.report addr b).sp = s.sp := rfl
@[simp] theorem State.report_a (s : State) (addr : Word) (b : Byte) : (s.report addr b).a = s.a := rfl
@[simp] theorem State.report_x (s : State) (addr : Word) (b : Byte) : (s.report addr b).x = s.x := rfl
@[simp] theorem State.report_y (s : State) (addr : Word) (b : Byte) : (s.report addr b).y = s.y := rfl
@[simp] theorem State.report_flagC (s : State) (addr : Word) (b : Byte) : (s.report addr b).flagC = s.flagC := rfl
@[simp] theorem State.report_flagZ (s : State) (addr : Word) (b : Byte) : (s.report addr b).flagZ = s.flagZ := rfl
@[simp] theorem State.report_flagI (s : State) (addr : Word) (b : Byte) : (s.report addr b).flagI = s.flagI := rfl
@[simp] theorem State.report_flagD (s : State) (addr : Word) (b : Byte) : (s.report addr b).flagD = s.flagD := rfl
@[simp] theorem State.report_flagB (s : State) (addr : Word) (b : Byte) : (s.report addr b).flagB = s.flagB := rfl
@[simp] theorem State.report_flagV (s : State) (addr : Word) (b : Byte) : (s.report addr b).flagV = s.flagV := rfl
@[simp] theorem State.report_flagN (s : State) (addr : Word) (b : Byte) : (s.report addr b).flagN = s.flagN := rfl
@[simp] theorem State.report_run (s : State) (addr : Word) (b : Byte) : (s.report addr b).run = s.run := rfl
@[simp] theorem State.report_reports (s : State) (addr : Word) (b : Byte) : (s.report addr b).reports = s.reports ++ [(addr, b)] := rfl
@[simp] theorem State.report_mem (s : State) (addr : Word) (b : Byte) : (s.report addr b).mem = s.mem := rfl

/-! ## State.setReg -/

@[simp] theorem State.setReg_pc (s : State) (r : Reg) (v : Byte) : (s.setReg r v).pc = s.pc := by cases r <;> rfl
@[simp] theorem State.setReg_sp (s : State) (r : Reg) (v : Byte) : (s.setReg r v).sp = s.sp := by cases r <;> rfl
@[simp] theorem State.setReg_flagC (s : State) (r : Reg) (v : Byte) : (s.setReg r v).flagC = s.flagC := by cases r <;> rfl
@[simp] theorem State.setReg_flagZ (s : State) (r : Reg) (v : Byte) : (s.setReg r v).flagZ = s.flagZ := by cases r <;> rfl
@[simp] theorem State.setReg_flagI (s : State) (r : Reg) (v : Byte) : (s.setReg r v).flagI = s.flagI := by cases r <;> rfl
@[simp] theorem State.setReg_flagD (s : State) (r : Reg) (v : Byte) : (s.setReg r v).flagD = s.flagD := by cases r <;> rfl
@[simp] theorem State.setReg_flagB (s : State) (r : Reg) (v : Byte) : (s.setReg r v).flagB = s.flagB := by cases r <;> rfl
@[simp] theorem State.setReg_flagV (s : State) (r : Reg) (v : Byte) : (s.setReg r v).flagV = s.flagV := by cases r <;> rfl
@[simp] theorem State.setReg_flagN (s : State) (r : Reg) (v : Byte) : (s.setReg r v).flagN = s.flagN := by cases r <;> rfl
@[simp] theorem State.setReg_run (s : State) (r : Reg) (v : Byte) : (s.setReg r v).run = s.run := by cases r <;> rfl
@[simp] theorem State.setReg_reports (s : State) (r : Reg) (v : Byte) : (s.setReg r v).reports = s.reports := by cases r <;> rfl
@[simp] theorem State.setReg_mem (s : State) (r : Reg) (v : Byte) : (s.setReg r v).mem = s.mem := by cases r <;> rfl
@[simp] theorem State.getReg_setReg (s : State) (r : Reg) (v : Byte) : (s.setReg r v).getReg r = v := by cases r <;> rfl
theorem State.getReg_setReg_ne (s : State) {q r : Reg} (v : Byte) (h : q ≠ r) : (s.setReg r v).getReg q = s.getReg q := by
  cases q <;> cases r <;> first | rfl | exact absurd rfl h
@[simp] theorem State.getReg_setNZ (s : State) (r : Reg) (v : Byte) : (s.setNZ v).getReg r = s.getReg r := by cases r <;> rfl
@[simp] theorem State.getReg_debit (s : State) (r : Reg) (n : Nat) : (s.debit n).getReg r = s.getReg r := by cases r <;> rfl
@[simp] theorem State.getReg_fetched (s : State) (r : Reg) (n : Nat) : (s.fetched n).getReg r = s.getReg r := by
  cases r <;> rfl

/-! ## The cycle counter -/

@[simp] theorem RunState.debit_idle (n : Nat) : RunState.idle.debit n = .idle := rfl
@[simp] theorem RunState.debit_running (remaining : Int) (n : Nat) :
    (RunState.running remaining).debit n = .running (remaining - n) := rfl
@[simp] theorem RunState.debit_debit (run : RunState) (m n : Nat) : (run.debit m).debit n = run.debit (m + n) := by
  cases run with
  | idle => rfl
  | running remaining => simp only [debit_running, running.injEq]; omega
@[simp] theorem RunState.debit_zero (run : RunState) : run.debit 0 = run := by
  cases run with
  | idle => rfl
  | running remaining => simp
@[simp] theorem RunState.live_idle : RunState.idle.live = false := rfl
@[simp] theorem RunState.live_running (remaining : Int) : (RunState.running remaining).live = decide (0 < remaining) := rfl
theorem RunState.live_iff (run : RunState) : run.live = true ↔ ∃ remaining, run = .running remaining ∧ 0 < remaining := by
  cases run <;> simp

end Sys2Proof.Machine
end

