-- ==== Sys2Proof/Laws/Arith.lean ====
section
/-! SUPPORT. The machine's byte, address and flag arithmetic in the numbers the claims use. -/

namespace Sys2Proof.Machine

/-! ## Bytes and words -/

theorem toNat_loByte (v : Word) : (loByte v).toNat = v.toNat % 256 := by simp [loByte]

theorem toNat_hiByte (v : Word) : (hiByte v).toNat = v.toNat / 256 := by
  have := v.isLt
  simp only [hiByte, BitVec.extractLsb'_toNat, Nat.shiftRight_eq_div_pow]
  omega

theorem toNat_joinBytes (hi lo : Byte) : (joinBytes hi lo).toNat = lo.toNat + 256 * hi.toNat := by
  simp only [joinBytes, BitVec.toNat_append]
  rw [← Nat.shiftLeft_add_eq_or_of_lt lo.isLt, Nat.shiftLeft_eq]
  omega

theorem toNat_zext16 (b : Byte) : (zext16 b).toNat = b.toNat := by
  have := b.isLt
  simp only [zext16, BitVec.toNat_setWidth]
  omega

theorem toNat_littleEndian (lo hi : Byte) : (littleEndian lo hi).toNat = lo.toNat + 256 * hi.toNat := by
  have := lo.isLt
  have := hi.isLt
  simp only [littleEndian, BitVec.toNat_ofNat]
  omega

theorem toNat_zeroPageAddr (n : Nat) : (zeroPageAddr n).toNat = n % 256 := by
  simp only [zeroPageAddr, BitVec.toNat_ofNat]
  omega

theorem toNat_addrOf (n : Nat) : (addrOf n).toNat = n % 65536 := by
  simp only [addrOf, BitVec.toNat_ofNat]
  omega

theorem joinBytes_eq (hi lo : Byte) : joinBytes hi lo = littleEndian lo hi :=
  BitVec.eq_of_toNat_eq (by rw [toNat_joinBytes, toNat_littleEndian])

theorem loByte_joinBytes (hi lo : Byte) : loByte (joinBytes hi lo) = lo := by
  apply BitVec.eq_of_toNat_eq
  have := lo.isLt
  rw [toNat_loByte, toNat_joinBytes]
  omega

theorem hiByte_joinBytes (hi lo : Byte) : hiByte (joinBytes hi lo) = hi := by
  apply BitVec.eq_of_toNat_eq
  have := lo.isLt
  rw [toNat_hiByte, toNat_joinBytes]
  omega

theorem joinBytes_hi_lo (v : Word) : joinBytes (hiByte v) (loByte v) = v := by
  apply BitVec.eq_of_toNat_eq
  rw [toNat_joinBytes, toNat_loByte, toNat_hiByte]
  omega

theorem loByte_eq (v : Word) : loByte v = BitVec.ofNat 8 (v.toNat % 256) := by
  apply BitVec.eq_of_toNat_eq
  simp [toNat_loByte]

theorem hiByte_eq (v : Word) : hiByte v = BitVec.ofNat 8 (v.toNat / 256) := by
  apply BitVec.eq_of_toNat_eq
  have := v.isLt
  rw [toNat_hiByte, BitVec.toNat_ofNat]
  omega

/-! ## Addresses -/

theorem zext16_eq (b : Byte) : zext16 b = zeroPageAddr b.toNat := by
  apply BitVec.eq_of_toNat_eq
  have := b.isLt
  rw [toNat_zext16, toNat_zeroPageAddr]
  omega

theorem zeroPageAddr_mod (n : Nat) : zeroPageAddr (n % 256) = zeroPageAddr n := by
  rw [zeroPageAddr, Nat.mod_mod, zeroPageAddr]

theorem zeroPageWord_mod (m : Memory) (n : Nat) : zeroPageWord m (n % 256) = zeroPageWord m n := by
  have h : zeroPageAddr (n % 256 + 1) = zeroPageAddr (n + 1) := by
    rw [← zeroPageAddr_mod (n % 256 + 1), Nat.mod_add_mod, zeroPageAddr_mod]
  rw [zeroPageWord, zeroPageAddr_mod, h, zeroPageWord]

theorem toNat_zpIndex (b i : Byte) : (zpIndex b i).toNat = (b.toNat + i.toNat) % 256 := by
  simp only [zpIndex, BitVec.toNat_add]

theorem zext16_zpIndex (b i : Byte) : zext16 (zpIndex b i) = zeroPageAddr (b.toNat + i.toNat) := by
  rw [zext16_eq, toNat_zpIndex, zeroPageAddr_mod]

theorem zext16_add_one (p : Byte) : zext16 (p + 1) = zeroPageAddr (p.toNat + 1) := by
  rw [show p + 1 = zpIndex p 1 from rfl, zext16_zpIndex]
  rfl

theorem add_ofNat_eq (pc : Word) (n : Nat) : pc + BitVec.ofNat 16 n = addrOf (pc.toNat + n) := by
  apply BitVec.eq_of_toNat_eq
  rw [toNat_addrOf, BitVec.toNat_add, BitVec.toNat_ofNat]
  omega

theorem addrOf_add (m n : Nat) : addrOf m + BitVec.ofNat 16 n = addrOf (m + n) := by
  apply BitVec.eq_of_toNat_eq
  rw [toNat_addrOf, BitVec.toNat_add, BitVec.toNat_ofNat, toNat_addrOf]
  omega

theorem add_one_eq (pc : Word) : pc + 1 = addrOf (pc.toNat + 1) := add_ofNat_eq pc 1

theorem add_two_eq (pc : Word) : pc + 2 = addrOf (pc.toNat + 2) := add_ofNat_eq pc 2

theorem add_zext16 (base : Word) (i : Byte) : base + zext16 i = addrOf (base.toNat + i.toNat) := by
  apply BitVec.eq_of_toNat_eq
  rw [toNat_addrOf, BitVec.toNat_add, toNat_zext16]

theorem toNat_retAddr (p : Word) : (retAddr p).toNat = (p.toNat + 65535) % 65536 := by
  rw [retAddr, BitVec.toNat_sub]
  change (65535 + p.toNat) % 65536 = _
  rw [Nat.add_comm]

theorem toNat_spAdvance (sp : Byte) : (spAdvance sp).toNat = (sp.toNat + 2) % 256 := by
  rw [spAdvance, BitVec.toNat_add]
  rfl

theorem stackAddr_eq (sp : Byte) : stackAddr sp = addrOf (0x0100 + sp.toNat) := add_zext16 stackBase sp

theorem stackAddr_add_one (sp : Byte) : stackAddr sp + 1 = addrOf (0x0101 + sp.toNat) := by
  rw [stackAddr_eq]
  refine (addrOf_add _ 1).trans ?_
  congr 1
  omega

/-! ## Pages and flags -/

/-- `AbsIndex` in numbers (spec/40_fetch_alu_addressing.md R132). -/
theorem absIndex_eq (base : Word) (i : Byte) :
    absIndex base i = (addrOf (base.toNat + i.toNat), pageCrossed base i) := by
  have hb := base.isLt
  have hi := i.isLt
  have hne : (hiByte (base + zext16 i) != hiByte base) = pageCrossed base i := by
    rw [Bool.eq_iff_iff, bne_iff_ne, pageCrossed, decide_eq_true_iff, not_iff_not, ← BitVec.toNat_inj, toNat_hiByte,
      toNat_hiByte, BitVec.toNat_add, toNat_zext16]
    omega
  rw [absIndex, hne, add_zext16]

theorem beq_zero_eq (v : Byte) : (v == 0x00) = decide (v.toNat = 0) := by
  rw [Bool.eq_iff_iff, beq_iff_eq, decide_eq_true_iff, ← BitVec.toNat_inj]
  rfl

theorem getLsbD_seven (v : Byte) : v.getLsbD 7 = decide (128 ≤ v.toNat) := by
  have h := BitVec.msb_eq_decide v
  rw [BitVec.msb_eq_getLsbD_last] at h
  simpa using h

/-- `SetNZ` in numbers (R131). -/
theorem State.setNZ_eq (s : State) (v : Byte) :
    s.setNZ v = { s with flagZ := decide (v.toNat = 0), flagN := decide (128 ≤ v.toNat) } := by
  rw [State.setNZ, beq_zero_eq, getLsbD_seven]

end Sys2Proof.Machine
end

