-- ==== Sys2Proof/Laws/PerInstr.lean ====
section
/-! SUPPORT. The per-instruction family `EncodedForm`: each instruction's bytes have its length, its opcode byte is looked
up to its own row, and its operand bytes assemble to it again. -/

namespace Sys2Proof.Laws.EncodedForm

/-- The encoding of one instruction, piece by piece (spec/30_encoding.md R91-R95, R100). -/
def Statement (i : Instr) : Prop :=
  i.wellFormed = true ∧ (encode i).length = i.length ∧ lookup dispatchTable i.row.opcode = some i.row ∧
    assemble i.row.op (i.operandBytes.getD 0 0) (i.operandBytes.getD 1 0) = some i

theorem ldaIm (v : Byte) : Statement (.ldaIm v) := ⟨rfl, rfl, rfl, rfl⟩
theorem ldaZp (v : Byte) : Statement (.ldaZp v) := ⟨rfl, rfl, rfl, rfl⟩
theorem ldaZpx (v : Byte) : Statement (.ldaZpx v) := ⟨rfl, rfl, rfl, rfl⟩
theorem ldaAbs (abs : Word) : Statement (.ldaAbs abs) :=
  ⟨rfl, rfl, rfl, congrArg (some ∘ Instr.ldaAbs) (Machine.joinBytes_hi_lo abs)⟩
theorem ldaAbsx (abs : Word) : Statement (.ldaAbsx abs) :=
  ⟨rfl, rfl, rfl, congrArg (some ∘ Instr.ldaAbsx) (Machine.joinBytes_hi_lo abs)⟩
theorem ldaAbsy (abs : Word) : Statement (.ldaAbsy abs) :=
  ⟨rfl, rfl, rfl, congrArg (some ∘ Instr.ldaAbsy) (Machine.joinBytes_hi_lo abs)⟩
theorem ldaIndx (v : Byte) : Statement (.ldaIndx v) := ⟨rfl, rfl, rfl, rfl⟩
theorem ldaIndy (v : Byte) : Statement (.ldaIndy v) := ⟨rfl, rfl, rfl, rfl⟩
theorem ldxIm (v : Byte) : Statement (.ldxIm v) := ⟨rfl, rfl, rfl, rfl⟩
theorem ldxZp (v : Byte) : Statement (.ldxZp v) := ⟨rfl, rfl, rfl, rfl⟩
theorem ldxZpy (v : Byte) : Statement (.ldxZpy v) := ⟨rfl, rfl, rfl, rfl⟩
theorem ldxAbs (abs : Word) : Statement (.ldxAbs abs) :=
  ⟨rfl, rfl, rfl, congrArg (some ∘ Instr.ldxAbs) (Machine.joinBytes_hi_lo abs)⟩
theorem ldxAbsy (abs : Word) : Statement (.ldxAbsy abs) :=
  ⟨rfl, rfl, rfl, congrArg (some ∘ Instr.ldxAbsy) (Machine.joinBytes_hi_lo abs)⟩
theorem ldyIm (v : Byte) : Statement (.ldyIm v) := ⟨rfl, rfl, rfl, rfl⟩
theorem ldyZp (v : Byte) : Statement (.ldyZp v) := ⟨rfl, rfl, rfl, rfl⟩
theorem ldyZpx (v : Byte) : Statement (.ldyZpx v) := ⟨rfl, rfl, rfl, rfl⟩
theorem ldyAbs (abs : Word) : Statement (.ldyAbs abs) :=
  ⟨rfl, rfl, rfl, congrArg (some ∘ Instr.ldyAbs) (Machine.joinBytes_hi_lo abs)⟩
theorem ldyAbsx (abs : Word) : Statement (.ldyAbsx abs) :=
  ⟨rfl, rfl, rfl, congrArg (some ∘ Instr.ldyAbsx) (Machine.joinBytes_hi_lo abs)⟩
theorem jsr (abs : Word) : Statement (.jsr abs) :=
  ⟨rfl, rfl, rfl, congrArg (some ∘ Instr.jsr) (Machine.joinBytes_hi_lo abs)⟩

/-- The family as one theorem. -/
theorem all (i : Instr) : Statement i := by
  cases i with
  | ldaIm v => exact ldaIm v
  | ldaZp v => exact ldaZp v
  | ldaZpx v => exact ldaZpx v
  | ldaAbs v => exact ldaAbs v
  | ldaAbsx v => exact ldaAbsx v
  | ldaAbsy v => exact ldaAbsy v
  | ldaIndx v => exact ldaIndx v
  | ldaIndy v => exact ldaIndy v
  | ldxIm v => exact ldxIm v
  | ldxZp v => exact ldxZp v
  | ldxZpy v => exact ldxZpy v
  | ldxAbs v => exact ldxAbs v
  | ldxAbsy v => exact ldxAbsy v
  | ldyIm v => exact ldyIm v
  | ldyZp v => exact ldyZp v
  | ldyZpx v => exact ldyZpx v
  | ldyAbs v => exact ldyAbs v
  | ldyAbsx v => exact ldyAbsx v
  | jsr v => exact jsr v

end Sys2Proof.Laws.EncodedForm
end

