-- ==== Sys2Proof/Laws/Decode.lean ====
section
/-! SUPPORT. The decoder: an opcode is unknown exactly when no row has it, and a row's operand bytes assemble to an
instruction of that row. -/

namespace Sys2Proof

theorem lookup_eq_some {t : List Row} {op : Byte} {row : Row} (h : lookup t op = some row) :
    row ∈ t ∧ row.opcode = op :=
  ⟨List.mem_of_find?_eq_some h, by simpa using List.find?_some h⟩

theorem lookup_eq_none {t : List Row} {op : Byte} : lookup t op = none ↔ op ∉ t.map Row.opcode := by
  simp only [lookup, List.find?_eq_none, beq_iff_eq, List.mem_map, not_exists, not_and]

/-- A row of the dispatch table assembles, from any operand bytes, to an instruction of that row with those bytes. -/
theorem assemble_row {row : Row} (h : row ∈ dispatchTable) (b1 b2 : Byte) :
    ∃ i, assemble row.op b1 b2 = some i ∧ i.row = row ∧
      i.operandBytes = match row.op.format with
        | .f2 => [b1]
        | .f3 => [b1, b2] := by
  simp only [dispatchTable, List.mem_cons, List.not_mem_nil, or_false] at h
  rcases h with h | h | h | h | h | h | h | h | h | h | h | h | h | h | h | h | h | h | h <;> subst h <;>
    refine ⟨_, rfl, rfl, ?_⟩ <;>
    simp only [Instr.operandBytes, Machine.loByte_joinBytes, Machine.hiByte_joinBytes] <;> rfl

theorem decode_cons_none {op : Byte} (h : lookup dispatchTable op = none) (rest : List Byte) :
    decode (op :: rest) = .rejected (.unknownOpcode op) := by simp only [decode, h]

theorem decode_cons_some {op : Byte} {row : Row} (h : lookup dispatchTable op = some row) {rest : List Byte} {i : Instr}
    (hl : row.op.format.length ≤ rest.length + 1) (ha : assemble row.op (rest.getD 0 0) (rest.getD 1 0) = some i) :
    decode (op :: rest) = .instr i (rest.drop (row.op.format.length - 1)) := by
  simp only [decode, h, ha, Nat.not_lt.mpr hl, if_false]

/-- What the decoder can answer with an instruction: a row was found, its operand bytes were there, and they assemble. -/
theorem decode_eq_instr {op : Byte} {rest : List Byte} {i : Instr} {left : List Byte}
    (h : decode (op :: rest) = .instr i left) :
    ∃ row, lookup dispatchTable op = some row ∧ row.op.format.length ≤ rest.length + 1 ∧
      assemble row.op (rest.getD 0 0) (rest.getD 1 0) = some i ∧ left = rest.drop (row.op.format.length - 1) := by
  cases hl : lookup dispatchTable op with
  | none => rw [decode_cons_none hl] at h; cases h
  | some row =>
    by_cases hlen : rest.length + 1 < row.op.format.length
    · simp only [decode, hl, hlen, if_true, reduceCtorEq] at h
    · obtain ⟨j, hj, -⟩ := assemble_row (lookup_eq_some hl).1 (rest.getD 0 0) (rest.getD 1 0)
      rw [decode_cons_some hl (Nat.not_lt.mp hlen) hj] at h
      cases h
      exact ⟨row, rfl, Nat.not_lt.mp hlen, hj, rfl⟩

theorem format_length_le_three (f : Format) : f.length ≤ 3 := by cases f <;> decide

/-- The window of three bytes decodes as its row assembles. -/
theorem decodeWindow_some {b0 b1 b2 : Byte} {row : Row} {i : Instr} (h : lookup dispatchTable b0 = some row)
    (ha : assemble row.op b1 b2 = some i) : decodeWindow b0 b1 b2 = some i := by
  rw [decodeWindow, decode_cons_some h (rest := [b1, b2]) (format_length_le_three _) ha]

theorem decodeWindow_none {b0 : Byte} (b1 b2 : Byte) (h : lookup dispatchTable b0 = none) :
    decodeWindow b0 b1 b2 = none := by
  rw [decodeWindow, decode_cons_none h]

/-- The window is unknown exactly when its first byte is. -/
theorem decodeWindow_eq_none {b0 b1 b2 : Byte} : decodeWindow b0 b1 b2 = none ↔ lookup dispatchTable b0 = none := by
  refine ⟨fun h => ?_, decodeWindow_none b1 b2⟩
  cases hl : lookup dispatchTable b0 with
  | none => rfl
  | some row =>
    obtain ⟨i, hi, -⟩ := assemble_row (lookup_eq_some hl).1 b1 b2
    rw [decodeWindow_some hl hi] at h
    cases h

/-- The first byte of a decoded window is the opcode of the instruction's row. -/
theorem decodeWindow_opcode {b0 b1 b2 : Byte} {i : Instr} (h : decodeWindow b0 b1 b2 = some i) : i.row.opcode = b0 := by
  cases hl : lookup dispatchTable b0 with
  | none => rw [decodeWindow_none b1 b2 hl] at h; cases h
  | some row =>
    obtain ⟨j, hj, hrow, -⟩ := assemble_row (lookup_eq_some hl).1 b1 b2
    rw [decodeWindow_some hl hj] at h
    cases h
    rw [hrow, (lookup_eq_some hl).2]

end Sys2Proof
end

