-- ==== Sys2Proof/Laws/Memory.lean ====
section
/-! SUPPORT. The memory operations: what a write leaves at each address, and that every operation keeps the canonical
form, in which equal reads are equal data. -/

namespace Sys2Proof.Machine

@[simp] theorem Memory.read_nil (a : Word) : Memory.read [] a = 0x00 := rfl

theorem Memory.read_cons (k : Nat) (b : Byte) (rest : Memory) (a : Word) :
    Memory.read ((k, b) :: rest) a = if k = a.toNat then b else Memory.read rest a := rfl

/-! ## Insertion and removal -/

theorem Memory.read_insert_ne (m : Memory) {k : Nat} (b : Byte) {a : Word} (h : k ≠ a.toNat) :
    Memory.read (Memory.insert m k b) a = Memory.read m a := by
  induction m with
  | nil => simp [Memory.insert, Memory.read_cons, h]
  | cons c rest ih =>
    obtain ⟨k', b'⟩ := c
    by_cases hk : k < k' <;> simp [Memory.insert, hk, Memory.read_cons, h, ih]

theorem Memory.read_insert_self (m : Memory) (b : Byte) (a : Word) (h : ∀ c ∈ m, c.1 ≠ a.toNat) :
    Memory.read (Memory.insert m a.toNat b) a = b := by
  induction m with
  | nil => simp [Memory.insert, Memory.read_cons]
  | cons c rest ih =>
    obtain ⟨k', b'⟩ := c
    have hk : k' ≠ a.toNat := h _ (List.mem_cons_self ..)
    have ih := ih fun c hc => h c (List.mem_cons_of_mem _ hc)
    by_cases hlt : a.toNat < k' <;> simp [Memory.insert, hlt, Memory.read_cons, hk, ih]

/-- Memory without the cell of an address. -/
abbrev Memory.without (m : Memory) (n : Nat) : Memory := m.filter fun c => c.1 != n

theorem Memory.read_without_ne (m : Memory) {n : Nat} {a : Word} (h : n ≠ a.toNat) :
    Memory.read (m.without n) a = Memory.read m a := by
  induction m with
  | nil => rfl
  | cons c rest ih =>
    obtain ⟨k, b⟩ := c
    by_cases hk : k = n
    · subst hk
      simpa [Memory.without, Memory.read_cons, h] using ih
    · simp only [Memory.without, List.filter_cons, bne_iff_ne, ne_eq, hk, not_false_eq_true, if_true, Memory.read_cons]
      split
      · rfl
      · exact ih

theorem Memory.read_without_self (m : Memory) (a : Word) : Memory.read (m.without a.toNat) a = 0x00 := by
  induction m with
  | nil => rfl
  | cons c rest ih =>
    obtain ⟨k, b⟩ := c
    by_cases hk : k = a.toNat
    · simpa [Memory.without, hk] using ih
    · simpa [Memory.without, hk, Memory.read_cons] using ih

theorem Memory.write_eq (m : Memory) (a : Word) (v : Byte) :
    m.write a v = if v = 0x00 then m.without a.toNat else Memory.insert (m.without a.toNat) a.toNat v := rfl

/-- A write is read back at its address (spec/20_memory.md R62). -/
theorem Memory.read_write_self (m : Memory) (a : Word) (v : Byte) : (m.write a v).read a = v := by
  rw [Memory.write_eq]
  split
  · next h => rw [h, Memory.read_without_self]
  · exact Memory.read_insert_self _ _ _ fun c hc => by simpa using (List.mem_filter.mp hc).2

/-- A write leaves every other address alone (R62). -/
theorem Memory.read_write_ne (m : Memory) {a b : Word} (v : Byte) (h : b ≠ a) : (m.write a v).read b = m.read b := by
  have hn : a.toNat ≠ b.toNat := fun e => h (BitVec.eq_of_toNat_eq e.symm)
  rw [Memory.write_eq]
  split
  · exact Memory.read_without_ne m hn
  · rw [Memory.read_insert_ne _ _ hn, Memory.read_without_ne m hn]

theorem Memory.read_write (m : Memory) (a b : Word) (v : Byte) :
    (m.write a v).read b = if b = a then v else m.read b := by
  split
  · next h => rw [h, Memory.read_write_self]
  · next h => exact Memory.read_write_ne m v h

/-! ## The canonical form -/

theorem Memory.wfFrom_cons (lo k : Nat) (b : Byte) (rest : Memory) :
    Memory.wfFrom lo ((k, b) :: rest) = true ↔
      lo ≤ k ∧ k < 65536 ∧ b ≠ 0x00 ∧ Memory.wfFrom (k + 1) rest = true := by
  have h : Memory.wfFrom lo ((k, b) :: rest) = true ↔
      lo ≤ k ∧ k < Config.memSize ∧ b ≠ Memory.unlisted ∧ Memory.wfFrom (k + 1) rest = true := by
    simp [Memory.wfFrom, and_assoc]
  exact h

theorem Memory.wfFrom_mono {lo lo' : Nat} (h : lo ≤ lo') {m : Memory} (hw : Memory.wfFrom lo' m = true) :
    Memory.wfFrom lo m = true := by
  cases m with
  | nil => rfl
  | cons c rest => obtain ⟨k, b⟩ := c; rw [Memory.wfFrom_cons] at *; exact ⟨h.trans hw.1, hw.2⟩

theorem Memory.wfFrom_without (n : Nat) {lo : Nat} {m : Memory} (hw : Memory.wfFrom lo m = true) :
    Memory.wfFrom lo (m.without n) = true := by
  induction m generalizing lo with
  | nil => rfl
  | cons c rest ih =>
    obtain ⟨k, b⟩ := c
    rw [Memory.wfFrom_cons] at hw
    obtain ⟨h1, h2, h3, h4⟩ := hw
    by_cases hk : k = n
    · have := Memory.wfFrom_mono (show lo ≤ k + 1 by omega) (ih h4)
      simpa [Memory.without, hk] using this
    · have := (Memory.wfFrom_cons lo k b (Memory.without rest n)).mpr ⟨h1, h2, h3, ih h4⟩
      simpa [Memory.without, hk] using this

theorem Memory.wfFrom_insert {k : Nat} {b : Byte} (hk : k < 65536) (hb : b ≠ 0x00) {lo : Nat} (hlo : lo ≤ k) {m : Memory}
    (hw : Memory.wfFrom lo m = true) (hm : ∀ c ∈ m, c.1 ≠ k) : Memory.wfFrom lo (Memory.insert m k b) = true := by
  induction m generalizing lo with
  | nil => exact (Memory.wfFrom_cons ..).mpr ⟨hlo, hk, hb, rfl⟩
  | cons c rest ih =>
    obtain ⟨k', b'⟩ := c
    have hne : k' ≠ k := hm _ (List.mem_cons_self ..)
    rw [Memory.wfFrom_cons] at hw
    obtain ⟨h1, h2, h3, h4⟩ := hw
    by_cases hlt : k < k'
    · simp only [Memory.insert, hlt, if_true, Memory.wfFrom_cons]
      exact ⟨hlo, hk, hb, by omega, h2, h3, h4⟩
    · simp only [Memory.insert, hlt, if_false, Memory.wfFrom_cons]
      exact ⟨h1, h2, h3, ih (by omega) h4 fun c hc => hm c (List.mem_cons_of_mem _ hc)⟩

/-- A write keeps the canonical form. -/
theorem Memory.write_wf {m : Memory} (hw : m.wf = true) (a : Word) (v : Byte) : (m.write a v).wf = true := by
  rw [Memory.write_eq]
  split
  · exact Memory.wfFrom_without _ hw
  · next h =>
    exact Memory.wfFrom_insert a.isLt h (Nat.zero_le _) (Memory.wfFrom_without _ hw)
      fun c hc => by simpa using (List.mem_filter.mp hc).2

/-- The reset image is canonical. -/
theorem Memory.nil_wf : Memory.wf [] = true := rfl

/-- An image the host passes is canonical (spec/20_memory.md R76). -/
theorem imageOf_wf (cells : List (Word × Byte)) : (imageOf cells).wf = true := by
  suffices h : ∀ m : Memory, m.wf = true → (cells.foldl (fun m c => Memory.write m c.1 c.2) m).wf = true from h [] rfl
  induction cells with
  | nil => exact fun m h => h
  | cons c rest ih => exact fun m h => ih _ (Memory.write_wf h _ _)

theorem Memory.read_eq_zero_below {lo : Nat} {m : Memory} (hw : Memory.wfFrom lo m = true) {a : Word}
    (h : a.toNat < lo) : Memory.read m a = 0x00 := by
  induction m generalizing lo with
  | nil => rfl
  | cons c rest ih =>
    obtain ⟨k, b⟩ := c
    rw [Memory.wfFrom_cons] at hw
    rw [Memory.read_cons, if_neg (by omega)]
    exact ih hw.2.2.2 (by omega)

theorem Memory.ext_from {lo lo' : Nat} {m n : Memory} (hm : Memory.wfFrom lo m = true) (hn : Memory.wfFrom lo' n = true)
    (h : ∀ a, Memory.read m a = Memory.read n a) : m = n := by
  induction m generalizing lo lo' n with
  | nil =>
    cases n with
    | nil => rfl
    | cons c rest =>
      obtain ⟨k, b⟩ := c
      rw [Memory.wfFrom_cons] at hn
      have := h (BitVec.ofNat 16 k)
      simp [Memory.read_cons, Nat.mod_eq_of_lt hn.2.1] at this
      exact absurd this.symm hn.2.2.1
  | cons c rest ih =>
    obtain ⟨k, b⟩ := c
    have hm' := (Memory.wfFrom_cons ..).mp hm
    cases n with
    | nil =>
      have := h (BitVec.ofNat 16 k)
      simp [Memory.read_cons, Nat.mod_eq_of_lt hm'.2.1] at this
      exact absurd this hm'.2.2.1
    | cons c' rest' =>
      obtain ⟨k', b'⟩ := c'
      have hn' := (Memory.wfFrom_cons ..).mp hn
      have hkk : k = k' := by
        rcases Nat.lt_trichotomy k k' with hlt | heq | hgt
        · have := h (BitVec.ofNat 16 k)
          have hz : Memory.read rest' (BitVec.ofNat 16 k) = 0x00 :=
            Memory.read_eq_zero_below hn'.2.2.2 (by simp; omega)
          simp [Memory.read_cons, Nat.mod_eq_of_lt hm'.2.1, Nat.ne_of_gt hlt, hz] at this
          exact absurd this hm'.2.2.1
        · exact heq
        · have := h (BitVec.ofNat 16 k')
          have hz : Memory.read rest (BitVec.ofNat 16 k') = 0x00 :=
            Memory.read_eq_zero_below hm'.2.2.2 (by simp; omega)
          simp [Memory.read_cons, Nat.mod_eq_of_lt hn'.2.1, Nat.ne_of_gt hgt, hz] at this
          exact absurd this.symm hn'.2.2.1
      subst hkk
      have hb : b = b' := by
        have := h (BitVec.ofNat 16 k)
        simpa [Memory.read_cons, Nat.mod_eq_of_lt hm'.2.1] using this
      subst hb
      congr 1
      refine ih hm'.2.2.2 hn'.2.2.2 fun a => ?_
      by_cases ha : k = a.toNat
      · rw [Memory.read_eq_zero_below hm'.2.2.2 (by omega), Memory.read_eq_zero_below hn'.2.2.2 (by omega)]
      · simpa [Memory.read_cons, ha] using h a

/-- Canonical memories that read the same everywhere are the same data (R60). -/
theorem Memory.ext_of_read {m n : Memory} (hm : m.wf = true) (hn : n.wf = true) (h : ∀ a, m.read a = n.read a) : m = n :=
  Memory.ext_from hm hn h

end Sys2Proof.Machine
end

