-- ==== Sys2Proof/Laws/Ops.lean ====
section
/-! SUPPORT. One lemma per shared operation that says everything it does; callers cite it and never unfold it. -/

namespace Sys2Proof.Machine

/-! ## Fetch unit -/

theorem State.debit_debit (s : State) (m n : Nat) : (s.debit m).debit n = s.debit (m + n) := by
  simp only [State.debit, RunState.debit_debit]

theorem State.debit_zero (s : State) : s.debit 0 = s := by simp only [State.debit, RunState.debit_zero]

theorem State.fetched_fetched (s : State) (m n : Nat) : (s.fetched m).fetched n = s.fetched (m + n) := by
  have h : s.pc + BitVec.ofNat 16 m + BitVec.ofNat 16 n = s.pc + BitVec.ofNat 16 (m + n) := by
    rw [add_ofNat_eq s.pc m, addrOf_add, add_ofNat_eq, Nat.add_assoc]
  simp only [State.fetched, RunState.debit_debit, h]

theorem State.fetchedF2_eq (s : State) : s.fetchedF2 = s.fetched 2 := State.fetched_fetched s 1 1

theorem State.fetchedF3_eq (s : State) : s.fetchedF3 = s.fetched 3 := State.fetched_fetched s 1 2

theorem fetchByte_eq (s : State) : fetchByte s = (s.mem.read s.pc, s.fetched 1) := rfl

theorem fetchWord_eq (s : State) :
    fetchWord s = (littleEndian (s.mem.read s.pc) (s.mem.read (s.pc + 1)), s.fetched 2) := by
  rw [fetchWord, joinBytes_eq]

theorem readByte_eq (addr : Word) (s : State) : readByte addr s = (s.mem.read addr, s.debit 1) := rfl

/-- `ReadZpWord` (spec/40_fetch_alu_addressing.md R123). -/
theorem readZpWord_eq (ptr : Byte) (s : State) : readZpWord ptr s = (zeroPageWord s.mem ptr.toNat, s.debit 2) := by
  simp only [readZpWord, readByte, State.debit_mem, joinBytes_eq, zext16_eq ptr, zext16_add_one, State.debit_debit,
    zeroPageWord]

/-! ## Writing a word (spec/20_memory.md R66) -/

/-- The image after a word write. -/
abbrev Memory.writeWord (m : Memory) (v addr : Word) : Memory := (m.write addr (loByte v)).write (addr + 1) (hiByte v)

theorem writeWord_eq (v addr : Word) (s : State) :
    Machine.writeWord v addr s = { s with mem := s.mem.writeWord v addr, run := s.run.debit 2 } := rfl

theorem word_ne_add_one (addr : Word) : addr ≠ addr + 1 := by
  intro h
  have h := congrArg BitVec.toNat h
  rw [add_one_eq, toNat_addrOf] at h
  have := addr.isLt
  omega

theorem Memory.read_writeWord_lo (m : Memory) (v addr : Word) : (m.writeWord v addr).read addr = loByte v := by
  rw [Memory.writeWord, Memory.read_write_ne _ _ (word_ne_add_one addr), Memory.read_write_self]

theorem Memory.read_writeWord_hi (m : Memory) (v addr : Word) : (m.writeWord v addr).read (addr + 1) = hiByte v :=
  Memory.read_write_self _ _ _

theorem Memory.read_writeWord_ne (m : Memory) (v : Word) {addr b : Word} (h : b ≠ addr) (h' : b ≠ addr + 1) :
    (m.writeWord v addr).read b = m.read b := by
  rw [Memory.writeWord, Memory.read_write_ne _ _ h', Memory.read_write_ne _ _ h]

theorem Memory.writeWord_wf {m : Memory} (h : m.wf = true) (v addr : Word) : (m.writeWord v addr).wf = true :=
  Memory.write_wf (Memory.write_wf h _ _) _ _

/-- The return address of a call is the address of its third byte (spec/43_subroutine_call.md R230). -/
theorem retAddr_after_fetch (pc : Word) : retAddr (pc + BitVec.ofNat 16 3) = pc + 2 := by
  rw [retAddr, BitVec.sub_eq_add_neg, BitVec.add_assoc]
  rfl

/-! ## Resolver forms (spec/40_fetch_alu_addressing.md R141-R149) -/

theorem immediateForm_eq (v : Byte) (s : State) : immediateForm v s = (.value v, s) := rfl

theorem zeroPageForm_eq (zp : Byte) (s : State) : zeroPageForm zp s = (.addr (zeroPageAddr zp.toNat), s) := by
  rw [zeroPageForm, zext16_eq]

theorem zeroPageIndexedForm_eq (zp i : Byte) (s : State) :
    zeroPageIndexedForm zp i s = (.addr (zeroPageAddr (zp.toNat + i.toNat)), s.debit 1) := by
  rw [zeroPageIndexedForm, zext16_zpIndex]

theorem absoluteForm_eq (abs : Word) (s : State) : absoluteForm abs s = (.addr abs, s) := rfl

theorem indexedForm_eq (base : Word) (i : Byte) (s : State) :
    indexedForm base i s =
      (.addr (addrOf (base.toNat + i.toNat)), s.debit (if pageCrossed base i then 1 else 0)) := by
  simp only [indexedForm, absIndex_eq]
  split
  · rfl
  · rw [State.debit_zero]

theorem indirectXForm_eq (zp : Byte) (s : State) :
    indirectXForm zp s = (.addr (zeroPageWord s.mem (zp.toNat + s.x.toNat)), s.debit 3) := by
  simp only [indirectXForm, readZpWord_eq, toNat_zpIndex, zeroPageWord_mod, State.debit_debit, State.debit_mem]

theorem indirectYForm_eq (zp : Byte) (s : State) :
    indirectYForm zp s =
      (.addr (addrOf ((zeroPageWord s.mem zp.toNat).toNat + s.y.toNat)),
        s.debit (2 + if pageCrossed (zeroPageWord s.mem zp.toNat) s.y then 1 else 0)) := by
  simp only [indirectYForm, readZpWord_eq, indexedForm_eq, State.debit_debit, State.debit_y]

/-! ## Loads and the call -/

/-- `Load` on an immediate value (spec/42_load_register.md R200). -/
theorem loadInto_value (r : Reg) (v : Byte) (s : State) : loadInto r (.value v, s) = (s.setReg r v).setNZ v := rfl

/-- `Load` from an address (R200). -/
theorem loadInto_addr (r : Reg) (ea : Word) (s : State) :
    loadInto r (.addr ea, s) = ((s.debit 1).setReg r (s.mem.read ea)).setNZ (s.mem.read ea) := rfl

/-- JSR after its target was fetched (spec/43_subroutine_call.md R230). -/
theorem callTo_eq (target : Word) (s : State) :
    callTo target s = { s with
      pc := target, sp := spAdvance s.sp, run := s.run.debit 3,
      mem := s.mem.writeWord (retAddr s.pc) (stackAddr s.sp) } := by
  simp only [callTo, writeWord_eq, State.debit, RunState.debit_debit]

end Sys2Proof.Machine
end

