-- ==== Sys2Proof/Laws/Exec.lean ====
section
/-! SUPPORT. What an instruction can do, said once: a load fetches its bytes, debits, and writes one register, `Z` and
`N`; JSR is the call. -/

namespace Sys2Proof.Machine

/-- What a load answers: `k` bytes fetched, `n` more cycles debited, register `r` loaded with `v`. -/
def loaded (s : State) (k n : Nat) (r : Reg) (v : Byte) : State := (((s.fetched k).debit n).setReg r v).setNZ v

theorem loadInto_value_loaded (s : State) (k : Nat) (r : Reg) (v : Byte) :
    loadInto r (.value v, s.fetched k) = loaded s k 0 r v := by
  rw [loadInto_value, loaded, State.debit_zero]

theorem loadInto_addr_loaded (s : State) (k : Nat) (r : Reg) (ea : Word) :
    loadInto r (.addr ea, s.fetched k) = loaded s k 1 r (s.mem.read ea) := rfl

theorem loadInto_addr_debit_loaded (s : State) (k n : Nat) (r : Reg) (ea : Word) :
    loadInto r (.addr ea, (s.fetched k).debit n) = loaded s k (n + 1) r (s.mem.read ea) := by
  rw [loadInto_addr, State.debit_debit, loaded]
  rfl

/-! ## The fields of a loaded state -/

@[simp] theorem loaded_pc (s : State) (k n : Nat) (r : Reg) (v : Byte) :
    (loaded s k n r v).pc = s.pc + BitVec.ofNat 16 k := by simp [loaded]
@[simp] theorem loaded_sp (s : State) (k n : Nat) (r : Reg) (v : Byte) : (loaded s k n r v).sp = s.sp := by
  simp [loaded]
@[simp] theorem loaded_mem (s : State) (k n : Nat) (r : Reg) (v : Byte) : (loaded s k n r v).mem = s.mem := by
  simp [loaded]
@[simp] theorem loaded_reports (s : State) (k n : Nat) (r : Reg) (v : Byte) :
    (loaded s k n r v).reports = s.reports := by simp [loaded]
@[simp] theorem loaded_run (s : State) (k n : Nat) (r : Reg) (v : Byte) :
    (loaded s k n r v).run = s.run.debit (k + n) := by simp [loaded]
@[simp] theorem loaded_flagC (s : State) (k n : Nat) (r : Reg) (v : Byte) : (loaded s k n r v).flagC = s.flagC := by
  simp [loaded]
@[simp] theorem loaded_flagI (s : State) (k n : Nat) (r : Reg) (v : Byte) : (loaded s k n r v).flagI = s.flagI := by
  simp [loaded]
@[simp] theorem loaded_flagD (s : State) (k n : Nat) (r : Reg) (v : Byte) : (loaded s k n r v).flagD = s.flagD := by
  simp [loaded]
@[simp] theorem loaded_flagB (s : State) (k n : Nat) (r : Reg) (v : Byte) : (loaded s k n r v).flagB = s.flagB := by
  simp [loaded]
@[simp] theorem loaded_flagV (s : State) (k n : Nat) (r : Reg) (v : Byte) : (loaded s k n r v).flagV = s.flagV := by
  simp [loaded]
@[simp] theorem loaded_flagZ (s : State) (k n : Nat) (r : Reg) (v : Byte) :
    (loaded s k n r v).flagZ = decide (v.toNat = 0) := by rw [loaded, State.setNZ_eq]
@[simp] theorem loaded_flagN (s : State) (k n : Nat) (r : Reg) (v : Byte) :
    (loaded s k n r v).flagN = decide (128 ≤ v.toNat) := by rw [loaded, State.setNZ_eq]
@[simp] theorem loaded_getReg (s : State) (k n : Nat) (r : Reg) (v : Byte) : (loaded s k n r v).getReg r = v := by
  simp [loaded]
theorem loaded_getReg_ne (s : State) (k n : Nat) {q r : Reg} (v : Byte) (h : q ≠ r) :
    (loaded s k n r v).getReg q = s.getReg q := by simp [loaded, State.getReg_setReg_ne _ _ h]

/-! ## Every instruction is one of the two -/

theorem indexed_cost (c : Bool) : 3 + ((if c then 1 else 0) + 1) = 4 + if c then 1 else 0 := by cases c <;> rfl

theorem indirect_cost (c : Bool) : 2 + (2 + (if c then 1 else 0) + 1) = 5 + if c then 1 else 0 := by cases c <;> rfl

/-- What `exec` can answer: a load of its destination, its cost the table's columns (spec/30_encoding.md R103), or the
call. -/
theorem exec_cases (i : Instr) (s : State) :
    (∃ r v n, destination i = some r ∧ exec i s = .next (loaded s i.length n r v) ∧
      i.length + n = i.row.baseCycles + if crosses i s then 1 else 0) ∨
    (∃ target, i = .jsr target ∧ exec i s = .next (callTo target (s.fetched 3))) := by
  cases i with
  | jsr target => exact .inr ⟨target, rfl, by rw [exec, execJsr, State.fetchedF3_eq]⟩
  | ldaIm v =>
    exact .inl ⟨.a, _, _, rfl, by
      rw [exec, execLdaIm, State.fetchedF2_eq, immediateForm_eq, loadInto_value_loaded]; rfl, rfl⟩
  | ldaZp v =>
    exact .inl ⟨.a, _, _, rfl, by
      rw [exec, execLdaZp, State.fetchedF2_eq, zeroPageForm_eq, loadInto_addr_loaded]; rfl, rfl⟩
  | ldaZpx v =>
    exact .inl ⟨.a, _, _, rfl, by
      rw [exec, execLdaZpx, State.fetchedF2_eq, zeroPageIndexedForm_eq, loadInto_addr_debit_loaded]; rfl, rfl⟩
  | ldaAbs v =>
    exact .inl ⟨.a, _, _, rfl, by
      rw [exec, execLdaAbs, State.fetchedF3_eq, absoluteForm_eq, loadInto_addr_loaded]; rfl, rfl⟩
  | ldaAbsx v =>
    exact .inl ⟨.a, _, _, rfl, by
      rw [exec, execLdaAbsx, State.fetchedF3_eq, indexedForm_eq, loadInto_addr_debit_loaded]; rfl, indexed_cost _⟩
  | ldaAbsy v =>
    exact .inl ⟨.a, _, _, rfl, by
      rw [exec, execLdaAbsy, State.fetchedF3_eq, indexedForm_eq, loadInto_addr_debit_loaded]; rfl, indexed_cost _⟩
  | ldaIndx v =>
    exact .inl ⟨.a, _, _, rfl, by
      rw [exec, execLdaIndx, State.fetchedF2_eq, indirectXForm_eq, loadInto_addr_debit_loaded]; rfl, rfl⟩
  | ldaIndy v =>
    exact .inl ⟨.a, _, _, rfl, by
      rw [exec, execLdaIndy, State.fetchedF2_eq, indirectYForm_eq, loadInto_addr_debit_loaded]; rfl, indirect_cost _⟩
  | ldxIm v =>
    exact .inl ⟨.x, _, _, rfl, by
      rw [exec, execLdxIm, State.fetchedF2_eq, immediateForm_eq, loadInto_value_loaded]; rfl, rfl⟩
  | ldxZp v =>
    exact .inl ⟨.x, _, _, rfl, by
      rw [exec, execLdxZp, State.fetchedF2_eq, zeroPageForm_eq, loadInto_addr_loaded]; rfl, rfl⟩
  | ldxZpy v =>
    exact .inl ⟨.x, _, _, rfl, by
      rw [exec, execLdxZpy, State.fetchedF2_eq, zeroPageIndexedForm_eq, loadInto_addr_debit_loaded]; rfl, rfl⟩
  | ldxAbs v =>
    exact .inl ⟨.x, _, _, rfl, by
      rw [exec, execLdxAbs, State.fetchedF3_eq, absoluteForm_eq, loadInto_addr_loaded]; rfl, rfl⟩
  | ldxAbsy v =>
    exact .inl ⟨.x, _, _, rfl, by
      rw [exec, execLdxAbsy, State.fetchedF3_eq, indexedForm_eq, loadInto_addr_debit_loaded]; rfl, indexed_cost _⟩
  | ldyIm v =>
    exact .inl ⟨.y, _, _, rfl, by
      rw [exec, execLdyIm, State.fetchedF2_eq, immediateForm_eq, loadInto_value_loaded]; rfl, rfl⟩
  | ldyZp v =>
    exact .inl ⟨.y, _, _, rfl, by
      rw [exec, execLdyZp, State.fetchedF2_eq, zeroPageForm_eq, loadInto_addr_loaded]; rfl, rfl⟩
  | ldyZpx v =>
    exact .inl ⟨.y, _, _, rfl, by
      rw [exec, execLdyZpx, State.fetchedF2_eq, zeroPageIndexedForm_eq, loadInto_addr_debit_loaded]; rfl, rfl⟩
  | ldyAbs v =>
    exact .inl ⟨.y, _, _, rfl, by
      rw [exec, execLdyAbs, State.fetchedF3_eq, absoluteForm_eq, loadInto_addr_loaded]; rfl, rfl⟩
  | ldyAbsx v =>
    exact .inl ⟨.y, _, _, rfl, by
      rw [exec, execLdyAbsx, State.fetchedF3_eq, indexedForm_eq, loadInto_addr_debit_loaded]; rfl, indexed_cost _⟩

theorem cost_bounds_of_le {n : Nat} (h : 1 ≤ n) (h' : n ≤ 5) (c : Bool) :
    1 ≤ n + (if c then 1 else 0) ∧ n + (if c then 1 else 0) ≤ 6 := by
  cases c
  · exact ⟨h, h'.trans (by decide)⟩
  · exact ⟨h.trans (Nat.le_add_right n 1), Nat.succ_le_succ h'⟩

/-- An instruction costs between 1 and 6 cycles (spec/30_encoding.md R100). -/
theorem cost_bounds (i : Instr) (s : State) :
    1 ≤ i.row.baseCycles + (if crosses i s then 1 else 0) ∧ i.row.baseCycles + (if crosses i s then 1 else 0) ≤ 6 := by
  have six : 1 ≤ 6 ∧ 6 ≤ 6 := by decide
  cases i with
  | ldaIm v => exact cost_bounds_of_le (by decide : 1 ≤ ldaImRow.baseCycles) (by decide) _
  | ldaZp v => exact cost_bounds_of_le (by decide : 1 ≤ ldaZpRow.baseCycles) (by decide) _
  | ldaZpx v => exact cost_bounds_of_le (by decide : 1 ≤ ldaZpxRow.baseCycles) (by decide) _
  | ldaAbs v => exact cost_bounds_of_le (by decide : 1 ≤ ldaAbsRow.baseCycles) (by decide) _
  | ldaAbsx v => exact cost_bounds_of_le (by decide : 1 ≤ ldaAbsxRow.baseCycles) (by decide) _
  | ldaAbsy v => exact cost_bounds_of_le (by decide : 1 ≤ ldaAbsyRow.baseCycles) (by decide) _
  | ldaIndx v => exact six
  | ldaIndy v => exact cost_bounds_of_le (by decide : 1 ≤ ldaIndyRow.baseCycles) (by decide) _
  | ldxIm v => exact cost_bounds_of_le (by decide : 1 ≤ ldxImRow.baseCycles) (by decide) _
  | ldxZp v => exact cost_bounds_of_le (by decide : 1 ≤ ldxZpRow.baseCycles) (by decide) _
  | ldxZpy v => exact cost_bounds_of_le (by decide : 1 ≤ ldxZpyRow.baseCycles) (by decide) _
  | ldxAbs v => exact cost_bounds_of_le (by decide : 1 ≤ ldxAbsRow.baseCycles) (by decide) _
  | ldxAbsy v => exact cost_bounds_of_le (by decide : 1 ≤ ldxAbsyRow.baseCycles) (by decide) _
  | ldyIm v => exact cost_bounds_of_le (by decide : 1 ≤ ldyImRow.baseCycles) (by decide) _
  | ldyZp v => exact cost_bounds_of_le (by decide : 1 ≤ ldyZpRow.baseCycles) (by decide) _
  | ldyZpx v => exact cost_bounds_of_le (by decide : 1 ≤ ldyZpxRow.baseCycles) (by decide) _
  | ldyAbs v => exact cost_bounds_of_le (by decide : 1 ≤ ldyAbsRow.baseCycles) (by decide) _
  | ldyAbsx v => exact cost_bounds_of_le (by decide : 1 ≤ ldyAbsxRow.baseCycles) (by decide) _
  | jsr v => exact six

end Sys2Proof.Machine
end

