-- ==== Sys2Proof/Laws/Step.lean ====
section
/-! SUPPORT. What a step can do, said once: nothing while idle, the loop's exit, an instruction, or an unknown opcode. -/

namespace Sys2Proof.Machine

theorem State.Ready.running {s : State} (h : s.Ready) : ∃ remaining, s.run = .running remaining ∧ 0 < remaining :=
  (RunState.live_iff _).mp h

/-- A ready machine runs the instruction at `pc` (spec/41_dispatch_execute.md R171). -/
theorem step_ready_some {s : State} {i : Instr} (h : s.Ready) (hi : decodeAt s = some i) : step s = exec i s := by
  obtain ⟨remaining, hr, hpos⟩ := h.running
  simp only [step, hr, hpos, if_true, hi]

/-- A ready machine reports an unknown opcode (R174). -/
theorem step_ready_none {s : State} (h : s.Ready) (hi : decodeAt s = none) :
    step s = .next ((s.fetched 1).report s.pc (s.mem.read s.pc)) := by
  obtain ⟨remaining, hr, hpos⟩ := h.running
  simp only [step, hr, hpos, if_true, hi]
  rfl

/-- Every answer of `exec` is a next state. -/
theorem exec_completes (i : Instr) (s : State) : ∃ t, exec i s = .next t := by
  obtain ⟨r, v, n, -, h, -⟩ | ⟨target, -, h⟩ := exec_cases i s
  · exact ⟨_, h⟩
  · exact ⟨_, h⟩

/-- What a step can do. -/
theorem step_cases {s t : State} (h : step s = .next t) :
    (s.run = .idle ∧ t = s) ∨
    (∃ remaining, s.run = .running remaining ∧ remaining ≤ 0 ∧ t = endCall s) ∨
    (s.Ready ∧ ∃ i, decodeAt s = some i ∧ exec i s = .next t) ∨
    (s.Ready ∧ decodeAt s = none ∧ t = (s.fetched 1).report s.pc (s.mem.read s.pc)) := by
  cases hr : s.run with
  | idle =>
    simp only [step, hr, idleStep] at h
    cases h
    exact .inl ⟨rfl, rfl⟩
  | running remaining =>
    by_cases hpos : 0 < remaining
    · have hready : s.Ready := (RunState.live_iff _).mpr ⟨remaining, hr, hpos⟩
      cases hi : decodeAt s with
      | none =>
        rw [step_ready_none hready hi] at h
        cases h
        exact .inr (.inr (.inr ⟨hready, rfl, rfl⟩))
      | some i =>
        rw [step_ready_some hready hi] at h
        exact .inr (.inr (.inl ⟨hready, i, rfl, h⟩))
    · simp only [step, hr, hpos, if_false] at h
      cases h
      exact .inr (.inl ⟨remaining, rfl, by omega, rfl⟩)

/-- A step's effect as one of four whole states, the instruction's cases spelled out. -/
theorem step_effect {s t : State} (h : step s = .next t) :
    t = s ∨ t = endCall s ∨ (∃ k n r v, destinationAt s = some r ∧ t = loaded s k n r v) ∨
    (∃ target, decodeAt s = some (.jsr target) ∧ t = callTo target (s.fetched 3)) ∨
    t = (s.fetched 1).report s.pc (s.mem.read s.pc) := by
  obtain ⟨-, rfl⟩ | ⟨_, -, -, rfl⟩ | ⟨-, i, hi, he⟩ | ⟨-, -, rfl⟩ := step_cases h
  · exact .inl rfl
  · exact .inr (.inl rfl)
  · obtain ⟨r, v, n, hd, hx, -⟩ | ⟨target, rfl, hx⟩ := exec_cases i s
    · rw [hx] at he
      cases he
      exact .inr (.inr (.inl ⟨_, n, r, v, by rw [destinationAt, hi]; exact hd, rfl⟩))
    · rw [hx] at he
      cases he
      exact .inr (.inr (.inr (.inl ⟨target, hi, rfl⟩)))
  · exact .inr (.inr (.inr (.inr rfl)))

/-! ## Runs of many steps -/

/-- One step of a run of any machine. -/
theorem machine_run_succ (M : Host.Core) (k : Nat) {s t : M.State} (h : M.step s = .next t) :
    M.run (k + 1) s = M.run k t := by simp only [Host.Core.run, h]

/-- One step of a run. -/
theorem core_run_succ (k : Nat) {s t : State} (h : step s = .next t) :
    Host.Core.run core (k + 1) s = Host.Core.run core k t := machine_run_succ core k h

/-- An idle machine stays as it is for ever (spec/60_exceptions.md R313). -/
theorem core_run_idle (k : Nat) {s : State} (h : s.run = .idle) : Host.Core.run core k s = .next s := by
  induction k with
  | zero => rfl
  | succ k ih => exact (core_run_succ k (t := s) (by simp only [step, h, idleStep])).trans ih

/-! ## Updates that steps do not see -/

/-- An update `g` of fields that neither the budget test, the fetch nor the decoder reads goes through a step as `f`, if it
goes through the four things a step can do. -/
theorem step_commutes (g : State → State) (f : State → State → State)
    (hrun : ∀ s, (g s).run = s.run) (hmem : ∀ s, (g s).mem = s.mem) (hpc : ∀ s, (g s).pc = s.pc)
    (hidle : ∀ s, ¬ s.Ready → f s s = g s) (hexit : ∀ s, ¬ s.Ready → f s (endCall s) = endCall (g s))
    (hexec : ∀ s i, s.Ready → decodeAt s = some i → exec i (g s) = mapNext (f s) (exec i s))
    (hunknown : ∀ s, s.Ready → decodeAt s = none →
      f s ((s.fetched 1).report s.pc (s.mem.read s.pc)) = ((g s).fetched 1).report s.pc (s.mem.read s.pc))
    (s : State) : step (g s) = mapNext (f s) (step s) := by
  have hd : decodeAt (g s) = decodeAt s := by simp only [decodeAt, hmem, hpc]
  by_cases hr : s.Ready
  · have hr' : (g s).Ready := by rw [State.Ready, hrun]; exact hr
    cases hi : decodeAt s with
    | none =>
      rw [step_ready_none hr hi, step_ready_none hr' (hd.trans hi), mapNext, hunknown s hr hi, hpc, hmem]
    | some i => rw [step_ready_some hr hi, step_ready_some hr' (hd.trans hi), hexec s i hr hi]
  · cases hrun' : s.run with
    | idle => simp only [step, hrun, hrun', idleStep, mapNext, hidle s hr]
    | running remaining =>
      have hle : ¬ 0 < remaining := fun h => hr (by rw [State.Ready, hrun']; simpa using h)
      simp only [step, hrun, hrun', hle, if_false, mapNext, hexit s hr]

end Sys2Proof.Machine
end

