-- ==== Sys2Proof/Laws/Loop.lean ====
section
/-! SUPPORT. The spec's own loop: what one iteration can do under any dispatch table, and that the loop ends. -/

namespace Sys2Proof.Machine

/-- A resolver fetches its operand bytes and debits; it writes nothing else (spec/40_fetch_alu_addressing.md R140). -/
theorem resolve_shape (m : Mode) (s : State) :
    ∃ res n, resolve m s = (res, (s.fetched (m.format.length - 1)).debit n) := by
  cases m with
  | immediate => exact ⟨_, 0, by rw [State.debit_zero]; rfl⟩
  | zeroPage => exact ⟨_, 0, by rw [State.debit_zero]; rfl⟩
  | zeroPageX => exact ⟨_, 1, rfl⟩
  | zeroPageY => exact ⟨_, 1, rfl⟩
  | absolute => exact ⟨_, 0, by rw [State.debit_zero]; rfl⟩
  | absoluteX => exact ⟨_, _, by simp only [resolve, fetchWord_eq, indexedForm_eq]; rfl⟩
  | absoluteY => exact ⟨_, _, by simp only [resolve, fetchWord_eq, indexedForm_eq]; rfl⟩
  | indirectX => exact ⟨_, _, by simp only [resolve, fetchByte_eq, indirectXForm_eq]; rfl⟩
  | indirectY => exact ⟨_, _, by simp only [resolve, fetchByte_eq, indirectYForm_eq]; rfl⟩

/-- The handler of a load, whatever its register and mode (spec/42_load_register.md R200). -/
theorem loadHandler_shape (r : Reg) (m : Mode) (s : State) :
    ∃ v n, loadHandler r m s = loaded s (m.format.length - 1) n r v := by
  obtain ⟨res, n, h⟩ := resolve_shape m s
  rw [loadHandler, h]
  cases res with
  | value v => exact ⟨v, n, rfl⟩
  | addr ea => exact ⟨_, _, loadInto_addr_debit_loaded _ _ _ _ _⟩

theorem loaded_fetched (s : State) (j k n : Nat) (r : Reg) (v : Byte) :
    loaded (s.fetched j) k n r v = loaded s (j + k) n r v := by rw [loaded, State.fetched_fetched, loaded]

/-- What an iteration can do, under any table (spec/41_dispatch_execute.md R170). -/
theorem iterate_cases (t : List Row) (s : State) :
    (∃ k n r v, iterate t s = loaded s (1 + k) n r v) ∨
    (∃ target, iterate t s = callTo target (s.fetched 3)) ∨
    iterate t s = (s.fetched 1).report s.pc (s.mem.read s.pc) := by
  simp only [iterate, fetchByte_eq]
  cases lookup t (s.mem.read s.pc) with
  | none => exact .inr (.inr rfl)
  | some row =>
    cases hop : row.op with
    | load r m =>
      obtain ⟨v, n, h⟩ := loadHandler_shape r m (s.fetched 1)
      exact .inl ⟨m.format.length - 1, n, r, v, by simp only [hop, handler, h, loaded_fetched]⟩
    | jsr =>
      refine .inr (.inl ⟨(fetchWord (s.fetched 1)).1, ?_⟩)
      simp only [hop, handler, jsrHandler, fetchWord_eq, State.fetched_fetched]

/-- An iteration debits at least one cycle (R176). -/
theorem iterate_run (t : List Row) (s : State) : ∃ n, 1 ≤ n ∧ (iterate t s).run = s.run.debit n := by
  obtain ⟨k, n, r, v, h⟩ | ⟨target, h⟩ | h := iterate_cases t s <;> rw [h]
  · exact ⟨1 + k + n, by omega, by rw [loaded_run]⟩
  · exact ⟨6, by omega, by rw [callTo_eq]; simp⟩
  · exact ⟨1, le_rfl, by simp⟩

theorem whileLoop_succ (t : List Row) (k : Nat) (s : State) :
    whileLoop t (k + 1) s = if s.run.live then whileLoop t k (iterate t s) else s := rfl

theorem whileLoop_not_live (t : List Row) (k : Nat) {s : State} (h : s.run.live = false) : whileLoop t k s = s := by
  cases k with
  | zero => rfl
  | succ k => rw [whileLoop_succ, h]; rfl

/-- A property that iterations keep holds when the loop ends. -/
theorem whileLoop_keeps {P : State → Prop} (t : List Row) (h : ∀ s, P s → P (iterate t s)) (k : Nat) {s : State}
    (hs : P s) : P (whileLoop t k s) := by
  induction k generalizing s with
  | zero => exact hs
  | succ k ih =>
    rw [whileLoop_succ]
    split
    · exact ih (h s hs)
    · exact hs

/-- With fuel for every cycle left, the loop runs to its exit, and more fuel changes nothing (R177). -/
theorem whileLoop_ends (t : List Row) (fuel : Nat) {s : State} {remaining : Int} (hr : s.run = .running remaining)
    (hf : remaining ≤ fuel) :
    (whileLoop t fuel s).run.live = false ∧ ∀ more, whileLoop t (fuel + more) s = whileLoop t fuel s := by
  induction fuel generalizing s remaining with
  | zero =>
    have hl : s.run.live = false := by rw [hr, RunState.live_running, decide_eq_false_iff_not]; omega
    exact ⟨hl, fun more => by rw [whileLoop_not_live t _ hl, whileLoop_not_live t _ hl]⟩
  | succ fuel ih =>
    cases hl : s.run.live with
    | false => exact ⟨by rw [whileLoop_not_live t _ hl, hl], fun more => by simp only [whileLoop_not_live t _ hl]⟩
    | true =>
      obtain ⟨n, hn, hrun⟩ := iterate_run t s
      rw [hr, RunState.debit_running] at hrun
      have := ih hrun (by omega)
      refine ⟨by rw [whileLoop_succ, hl]; exact this.1, fun more => ?_⟩
      rw [show fuel + 1 + more = fuel + more + 1 by omega, whileLoop_succ, whileLoop_succ, hl]
      exact this.2 more

/-- The loop never leaves the running state by itself. -/
theorem whileLoop_running (t : List Row) (fuel : Nat) {s : State} (h : s.run ≠ .idle) :
    (whileLoop t fuel s).run ≠ .idle := by
  refine whileLoop_keeps (P := fun u => u.run ≠ .idle) t (fun u hu => ?_) fuel h
  obtain ⟨n, -, hrun⟩ := iterate_run t u
  rw [hrun]
  cases hu' : u.run with
  | idle => exact absurd hu' hu
  | running remaining => simp

end Sys2Proof.Machine
end

