-- ==== Sys2Proof/Tests/Slice0.lean ====
section
/-! SUPPORT. The model's own tests: what the checks refuse, the words of spec/30_encoding.md and
spec/opcode_table.json, the vectors of spec/95_test_vectors.md (each named after its vector), and for every statement with
hypotheses a state that meets them. -/

namespace Sys2Proof.Tests

open Sys2Proof Sys2Proof.Machine

/-- A machine as after reset, these bytes written by the host, in a call with one cycle left. -/
def machine (cells : List (Word × Byte)) : State := { State.reset with run := .running 1, mem := imageOf cells }

/-- The same before the call. -/
def loadedMachine (cells : List (Word × Byte)) : State := { State.reset with mem := imageOf cells }

/-- The state a step goes on with. -/
def stepped (s : State) : Option State :=
  match step s with
  | .next t => some t
  | .fault _ => none
  | .refused _ => none

/-- The state `exec` goes on with. -/
def ran (i : Instr) (s : State) : Option State :=
  match exec i s with
  | .next t => some t
  | .fault _ => none
  | .refused _ => none

/-- What `execute` answers over the spec's table. -/
def executed (budget : Nat) (s : State) : Option (Int × State) :=
  match execute dispatchTable budget s with
  | .next p => some p
  | .fault _ => none
  | .refused _ => none

/-- A register with `Z`, `N`, `pc` and the counter: what a load leaves. -/
def seen (r : Reg) (t : State) : Byte × Bool × Bool × Word × RunState := (t.getReg r, t.flagZ, t.flagN, t.pc, t.run)

/-! ## Ill-formed tables are refused (R101, R103, R162) -/

theorem test_table_ok : tableWellFormed dispatchTable = true := by decide
theorem test_table_same_opcode_twice : opcodesDistinct [ldaImRow, { ldaZpRow with opcode := 0xA9 }] = false := by decide
theorem test_table_same_opcode_refused : tableWellFormed [ldaImRow, { ldaZpRow with opcode := 0xA9 }] = false := by decide
theorem test_row_wrong_cost : ({ ldaZpRow with baseCycles := 4 } : Row).wellFormed = false := by decide
theorem test_row_wrong_page_cross : ({ ldaAbsxRow with pageCross := false } : Row).wellFormed = false := by decide
theorem test_row_outside_default : Row.wellFormed ⟨0x9F, "LDA_ZPY", .load .a .zeroPageY, 4, false⟩ = true := by decide

/-! ## Decoding: words written out from the encodings (R91, R95, R100), byte 0 first -/

theorem test_decode_lda_im : decode [0b10101001, 0x42] = .instr (.ldaIm 0x42) [] := by decide
theorem test_decode_lda_zp : decode [0b10100101, 0x40] = .instr (.ldaZp 0x40) [] := by decide
theorem test_decode_lda_zpx : decode [0b10110101, 0x80] = .instr (.ldaZpx 0x80) [] := by decide
theorem test_decode_lda_abs : decode [0b10101101, 0x34, 0x12] = .instr (.ldaAbs 0x1234) [] := by decide
theorem test_decode_lda_absx : decode [0b10111101, 0x01, 0x44] = .instr (.ldaAbsx 0x4401) [] := by decide
theorem test_decode_lda_absy : decode [0b10111001, 0xFF, 0x12] = .instr (.ldaAbsy 0x12FF) [] := by decide
theorem test_decode_lda_indx : decode [0b10100001, 0xFA] = .instr (.ldaIndx 0xFA) [] := by decide
theorem test_decode_lda_indy : decode [0b10110001, 0x40] = .instr (.ldaIndy 0x40) [] := by decide
theorem test_decode_ldx_im : decode [0b10100010, 0x7F] = .instr (.ldxIm 0x7F) [] := by decide
theorem test_decode_ldx_zp : decode [0b10100110, 0x10] = .instr (.ldxZp 0x10) [] := by decide
theorem test_decode_ldx_zpy : decode [0b10110110, 0x10] = .instr (.ldxZpy 0x10) [] := by decide
theorem test_decode_ldx_abs : decode [0b10101110, 0x00, 0x30] = .instr (.ldxAbs 0x3000) [] := by decide
theorem test_decode_ldx_absy : decode [0b10111110, 0xF0, 0x30] = .instr (.ldxAbsy 0x30F0) [] := by decide
theorem test_decode_ldy_im : decode [0b10100000, 0xF0] = .instr (.ldyIm 0xF0) [] := by decide
theorem test_decode_ldy_zp : decode [0b10100100, 0xFF] = .instr (.ldyZp 0xFF) [] := by decide
theorem test_decode_ldy_zpx : decode [0b10110100, 0xFE] = .instr (.ldyZpx 0xFE) [] := by decide
theorem test_decode_ldy_abs : decode [0b10101100, 0xFE, 0xFF] = .instr (.ldyAbs 0xFFFE) [] := by decide
theorem test_decode_ldy_absx : decode [0b10111100, 0x01, 0x80] = .instr (.ldyAbsx 0x8001) [] := by decide
theorem test_decode_jsr : decode [0b00100000, 0x00, 0x40] = .instr (.jsr 0x4000) [] := by decide
theorem test_decode_leaves_rest : decode [0xA9, 0x01, 0xA9, 0x00] = .instr (.ldaIm 0x01) [0xA9, 0x00] := by decide
theorem test_decode_brk_unknown : decode [0x00, 0x00] = .rejected (.unknownOpcode 0x00) := by decide
theorem test_decode_historical_nop_unknown : decode [0xEA] = .rejected (.unknownOpcode 0xEA) := by decide
theorem test_decode_truncated : decode [0xAD, 0x34] = .rejected (.truncated (some 0xAD)) := by decide
theorem test_decode_empty : decode [] = .rejected (.truncated none) := by decide
theorem test_table_word_three_bytes : decodeTableWord 24 0x1234AD = some (.ldaAbs 0x1234) := by decide
theorem test_table_word_opcode_only : decodeTableWord 8 0xFFA9 = some (.ldaIm 0x00) := by decide
theorem test_encode_low_byte_first : encode (.jsr 0x4003) = [0x20, 0x03, 0x40] := by decide

/-! ## Fetch unit and ALU (V-F, V-A) -/

theorem test_f2_fetch_byte_wraps : (fetchByte { machine [(0xFFFF, 0x9A)] with pc := 0xFFFF }).1 = 0x9A ∧
    (fetchByte { machine [(0xFFFF, 0x9A)] with pc := 0xFFFF }).2.pc = 0x0000 := by decide
theorem test_f5_fetch_word_wraps : (fetchWord { machine [(0xFFFF, 0x34), (0x0000, 0x12)] with pc := 0xFFFF }).1 = 0x1234 ∧
    (fetchWord { machine [(0xFFFF, 0x34), (0x0000, 0x12)] with pc := 0xFFFF }).2.pc = 0x0001 := by decide
theorem test_f7_pointer_wraps_in_zero_page :
    (readZpWord 0xFF (machine [(0x00FF, 0x34), (0x0000, 0x12), (0x0100, 0x99)])).1 = 0x1234 := by decide
theorem test_a1_zp_index : zpIndex 0x80 0xFF = 0x7F := by decide
theorem test_a5_abs_index_cross : absIndex 0x4401 0xFF = (0x4500, true) := by decide
theorem test_a9_abs_index_no_cross : absIndex 0xFF00 0xFF = (0xFFFF, false) := by decide
theorem test_a10_abs_index_wraps : absIndex 0xFFFF 0x01 = (0x0000, true) := by decide
theorem test_a13_ret_addr : retAddr 0x0000 = 0xFFFF := by decide
theorem test_a15_sp_advance : spAdvance 0xFE = 0x00 := by decide
theorem test_write_zero_drops_the_cell : Memory.write [(5, 0x01)] 0x0005 0x00 = [] := by decide
theorem test_write_keeps_order : Memory.write [(5, 0x01)] 0x0004 0x02 = [(4, 0x02), (5, 0x01)] := by decide

/-! ## Loads (V-D): the step of a machine with one cycle left, which completes (R172) -/

theorem test_d1_lda_im : (stepped
    { machine [(0xFFFC, 0xA9), (0xFFFD, 0x00)] with flagC := true, flagI := true, flagD := true, flagB := true, flagV := true, flagN := true }).map (seen .a) =
    some (0x00, true, false, 0xFFFE, .running (-1)) := by decide
theorem test_d2_lda_im : (stepped
    { machine [(0xFFFC, 0xA9), (0xFFFD, 0x80)] with flagZ := true }).map (seen .a) =
    some (0x80, false, true, 0xFFFE, .running (-1)) := by decide
theorem test_d4_lda_zp : (stepped
    (machine [(0xFFFC, 0xA5), (0xFFFD, 0x40), (0x0040, 0x00)])).map (seen .a) =
    some (0x00, true, false, 0xFFFE, .running (-2)) := by decide
theorem test_d5_lda_zpx : (stepped
    { machine [(0xFFFC, 0xB5), (0xFFFD, 0x80), (0x007F, 0x38)] with x := 0xFF }).map (seen .a) =
    some (0x38, false, false, 0xFFFE, .running (-3)) := by decide
theorem test_d6_lda_abs : (stepped
    (machine [(0xFFFC, 0xAD), (0xFFFD, 0x34), (0xFFFE, 0x12), (0x1234, 0x99)])).map (seen .a) =
    some (0x99, false, true, 0xFFFF, .running (-3)) := by decide
theorem test_d7_lda_absx_cross : (stepped
    { machine [(0xFFFC, 0xBD), (0xFFFD, 0x01), (0xFFFE, 0x44), (0x4500, 0x40)] with x := 0xFF }).map (seen .a) =
    some (0x40, false, false, 0xFFFF, .running (-4)) := by decide
theorem test_d8_lda_absx : (stepped
    { machine [(0xFFFC, 0xBD), (0xFFFD, 0x01), (0xFFFE, 0x44), (0x4411, 0x40)] with x := 0x10 }).map (seen .a) =
    some (0x40, false, false, 0xFFFF, .running (-3)) := by decide
theorem test_d9_lda_absy_cross : (stepped
    { machine [(0xFFFC, 0xB9), (0xFFFD, 0xFF), (0xFFFE, 0x12), (0x1300, 0x01)] with y := 0x01 }).map (seen .a) =
    some (0x01, false, false, 0xFFFF, .running (-4)) := by decide
theorem test_d10_lda_indx : (stepped
    { machine [(0xFFFC, 0xA1), (0xFFFD, 0xFA), (0x00FF, 0x34), (0x0000, 0x12), (0x1234, 0x7F)] with x := 0x05 }).map (seen .a) =
    some (0x7F, false, false, 0xFFFE, .running (-5)) := by decide
theorem test_d11_lda_indy_cross : (stepped
    { machine [(0xFFFC, 0xB1), (0xFFFD, 0x40), (0x0040, 0x20), (0x0041, 0x13), (0x1410, 0xC3)] with y := 0xF0 }).map (seen .a) =
    some (0xC3, false, true, 0xFFFE, .running (-5)) := by decide
theorem test_d12_lda_indy : (stepped
    { machine [(0xFFFC, 0xB1), (0xFFFD, 0x40), (0x0040, 0x20), (0x0041, 0x13), (0x1330, 0xC3)] with y := 0x10 }).map (seen .a) =
    some (0xC3, false, true, 0xFFFE, .running (-4)) := by decide
theorem test_d13_ldx_im : (stepped
    { machine [(0xFFFC, 0xA2), (0xFFFD, 0x00)] with x := 0x55 }).map (seen .x) =
    some (0x00, true, false, 0xFFFE, .running (-1)) := by decide
theorem test_d14_ldx_zp : (stepped
    (machine [(0xFFFC, 0xA6), (0xFFFD, 0x10), (0x0010, 0x20)])).map (seen .x) =
    some (0x20, false, false, 0xFFFE, .running (-2)) := by decide
theorem test_d15_ldx_zpy : (stepped
    { machine [(0xFFFC, 0xB6), (0xFFFD, 0x10), (0x0005, 0x80)] with y := 0xF5 }).map (seen .x) =
    some (0x80, false, true, 0xFFFE, .running (-3)) := by decide
theorem test_d16_ldx_abs : (stepped
    (machine [(0xFFFC, 0xAE), (0xFFFD, 0x00), (0xFFFE, 0x30), (0x3000, 0x7F)])).map (seen .x) =
    some (0x7F, false, false, 0xFFFF, .running (-3)) := by decide
theorem test_d17_ldx_absy_cross : (stepped
    { machine [(0xFFFC, 0xBE), (0xFFFD, 0xF0), (0xFFFE, 0x30)] with y := 0x20 }).map (seen .x) =
    some (0x00, true, false, 0xFFFF, .running (-4)) := by decide
theorem test_d18_ldy_im : (stepped
    (machine [(0xFFFC, 0xA0), (0xFFFD, 0xF0)])).map (seen .y) =
    some (0xF0, false, true, 0xFFFE, .running (-1)) := by decide
theorem test_d19_ldy_zp : (stepped
    (machine [(0xFFFC, 0xA4), (0xFFFD, 0xFF), (0x00FF, 0x01)])).map (seen .y) =
    some (0x01, false, false, 0xFFFE, .running (-2)) := by decide
theorem test_d20_ldy_zpx : (stepped
    { machine [(0xFFFC, 0xB4), (0xFFFD, 0xFF)] with x := 0x05 }).map (seen .y) =
    some (0x00, true, false, 0xFFFE, .running (-3)) := by decide
theorem test_d21_ldy_abs : (stepped
    (machine [(0xFFFC, 0xAC), (0xFFFD, 0xFF), (0xFFFE, 0xFF), (0xFFFF, 0xFF)])).map (seen .y) =
    some (0xFF, false, true, 0xFFFF, .running (-3)) := by decide
theorem test_d22_ldy_absx_wraps : (stepped
    { machine [(0xFFFC, 0xBC), (0xFFFD, 0xFF), (0xFFFE, 0xFF)] with x := 0x01 }).map (seen .y) =
    some (0x00, true, false, 0xFFFF, .running (-4)) := by decide
theorem test_d1_other_flags_kept : (stepped { machine [(0xFFFC, 0xA9)] with
      flagC := true, flagI := true, flagD := true, flagB := true, flagV := true }).map
    (fun t => (t.flagC, t.flagI, t.flagD, t.flagB, t.flagV)) = some (true, true, true, true, true) := by decide
theorem test_d23_operand_past_the_top : (stepped { machine [(0xFFFF, 0xA9), (0x0000, 0x42)] with pc := 0xFFFF }).map
    (seen .a) = some (0x42, false, false, 0x0001, .running (-1)) := by decide

/-! ## JSR (V-J) -/

theorem test_j1_jsr : (stepped (machine [(0xFFFC, 0x20), (0xFFFD, 0x00), (0xFFFE, 0x40)])).map
    (fun t => (t.pc, t.sp, t.mem.read 0x0100, t.mem.read 0x0101, t.run)) =
    some (0x4000, 0x02, 0xFE, 0xFF, .running (-5)) := by decide
theorem test_j2_jsr_sp_wraps : (stepped
    { machine [(0xFFFC, 0x20), (0xFFFD, 0x34), (0xFFFE, 0x12)] with sp := 0xFE }).map
    (fun t => (t.pc, t.sp, t.mem.read 0x01FE, t.mem.read 0x01FF)) = some (0x1234, 0x00, 0xFE, 0xFF) := by decide

/-! ## Unknown opcodes and the execute loop (W5, V-L, V-J5) -/

theorem test_w5_unknown_opcode : executed 1 (loadedMachine []) =
    some (1, { State.reset with pc := 0xFFFD, reports := [(0xFFFC, 0x00)] }) := by decide
theorem test_l1_execute_zero : executed 0 (loadedMachine [(0xFFFC, 0xA9), (0xFFFD, 0x42)]) =
    some (0, loadedMachine [(0xFFFC, 0xA9), (0xFFFD, 0x42)]) := by decide
theorem test_l2_execute_overruns : (executed 1 (loadedMachine [(0xFFFC, 0xA9), (0xFFFD, 0x42)])).map
    (fun p => (p.1, p.2.a, p.2.pc)) = some (2, 0x42, 0xFFFE) := by decide
theorem test_l7_desynchronised : (executed 4
      (loadedMachine [(0xFFFC, 0x8D), (0xFFFD, 0x00), (0xFFFE, 0xA9), (0xFFFF, 0x37)])).map
    (fun p => (p.1, p.2.a, p.2.pc, p.2.reports)) =
    some (4, 0x37, 0x0000, [(0xFFFC, 0x8D), (0xFFFD, 0x00)]) := by decide
theorem test_j5_fetch_sees_the_stack_write : (executed 8 (loadedMachine [(0xFFFC, 0x20), (0xFFFE, 0x01)])).map
    (fun p => (p.1, p.2.pc, p.2.sp, p.2.reports)) =
    some (8, 0x0102, 0x02, [(0x0100, 0xFE), (0x0101, 0xFF)]) := by decide
theorem test_loop_exit : (stepped { State.reset with run := .running (-5) }).map State.run = some .idle := by decide
theorem test_reset_keeps_reports : hostReset { State.reset with a := 0x12, reports := [(0x0300, 0x02)] } =
    { State.reset with reports := [(0x0300, 0x02)] } := by decide
theorem test_placed_word_runs_first : (stepped (State.reset.withFetchWord 16 0x42A9)).map (seen .a) =
    some (0x42, false, false, 0xFFFE, .running (-1)) := by decide

/-! ## Witnesses: states that meet the hypotheses of the statements -/

theorem witness_LdaImLoads : (machine [(0xFFFC, 0xA9)]).Ready ∧ (machine [(0xFFFC, 0xA9)]).mem.read 0xFFFC = 0xA9 := by decide
theorem witness_LdaZpLoads : (machine [(0xFFFC, 0xA5)]).Ready ∧ (machine [(0xFFFC, 0xA5)]).mem.read 0xFFFC = 0xA5 := by decide
theorem witness_LdaZpxLoads : (machine [(0xFFFC, 0xB5)]).Ready ∧ (machine [(0xFFFC, 0xB5)]).mem.read 0xFFFC = 0xB5 := by decide
theorem witness_LdaAbsLoads : (machine [(0xFFFC, 0xAD)]).Ready ∧ (machine [(0xFFFC, 0xAD)]).mem.read 0xFFFC = 0xAD := by decide
theorem witness_LdaAbsxLoads : (machine [(0xFFFC, 0xBD)]).Ready ∧ (machine [(0xFFFC, 0xBD)]).mem.read 0xFFFC = 0xBD := by decide
theorem witness_LdaAbsyLoads : (machine [(0xFFFC, 0xB9)]).Ready ∧ (machine [(0xFFFC, 0xB9)]).mem.read 0xFFFC = 0xB9 := by decide
theorem witness_LdaIndxLoads : (machine [(0xFFFC, 0xA1)]).Ready ∧ (machine [(0xFFFC, 0xA1)]).mem.read 0xFFFC = 0xA1 := by decide
theorem witness_LdaIndyLoads : (machine [(0xFFFC, 0xB1)]).Ready ∧ (machine [(0xFFFC, 0xB1)]).mem.read 0xFFFC = 0xB1 := by decide
theorem witness_LdxImLoads : (machine [(0xFFFC, 0xA2)]).Ready ∧ (machine [(0xFFFC, 0xA2)]).mem.read 0xFFFC = 0xA2 := by decide
theorem witness_LdxZpLoads : (machine [(0xFFFC, 0xA6)]).Ready ∧ (machine [(0xFFFC, 0xA6)]).mem.read 0xFFFC = 0xA6 := by decide
theorem witness_LdxZpyLoads : (machine [(0xFFFC, 0xB6)]).Ready ∧ (machine [(0xFFFC, 0xB6)]).mem.read 0xFFFC = 0xB6 := by decide
theorem witness_LdxAbsLoads : (machine [(0xFFFC, 0xAE)]).Ready ∧ (machine [(0xFFFC, 0xAE)]).mem.read 0xFFFC = 0xAE := by decide
theorem witness_LdxAbsyLoads : (machine [(0xFFFC, 0xBE)]).Ready ∧ (machine [(0xFFFC, 0xBE)]).mem.read 0xFFFC = 0xBE := by decide
theorem witness_LdyImLoads : (machine [(0xFFFC, 0xA0)]).Ready ∧ (machine [(0xFFFC, 0xA0)]).mem.read 0xFFFC = 0xA0 := by decide
theorem witness_LdyZpLoads : (machine [(0xFFFC, 0xA4)]).Ready ∧ (machine [(0xFFFC, 0xA4)]).mem.read 0xFFFC = 0xA4 := by decide
theorem witness_LdyZpxLoads : (machine [(0xFFFC, 0xB4)]).Ready ∧ (machine [(0xFFFC, 0xB4)]).mem.read 0xFFFC = 0xB4 := by decide
theorem witness_LdyAbsLoads : (machine [(0xFFFC, 0xAC)]).Ready ∧ (machine [(0xFFFC, 0xAC)]).mem.read 0xFFFC = 0xAC := by decide
theorem witness_LdyAbsxLoads : (machine [(0xFFFC, 0xBC)]).Ready ∧ (machine [(0xFFFC, 0xBC)]).mem.read 0xFFFC = 0xBC := by decide
theorem witness_JsrCalls : (machine [(0xFFFC, 0x20)]).Ready ∧ (machine [(0xFFFC, 0x20)]).mem.read 0xFFFC = 0x20 ∧
    (0x0102 : Word) ≠ addrOf (0x0100 + 0) ∧ (0x0102 : Word) ≠ addrOf (0x0101 + 0) := by decide
theorem witness_SuccessiveCallsStackUpward :
    ((ran (.jsr 0x0300) { State.reset with sp := 0xFE }).bind (ran (.jsr 0x0400))).map (fun u => (u.pc, u.sp)) =
      some (0x0400, 0x02) := by decide
theorem witness_UnknownOpcodeIsReportedAndSkipped : (machine [(0xFFFC, 0xFF)]).Ready ∧
    (machine [(0xFFFC, 0xFF)]).mem.read 0xFFFC ∉ ([0xAD, 0xBD, 0xB9, 0xAE, 0xBE, 0xAC, 0xBC, 0x20, 0xA9, 0xA5, 0xB5, 0xA1, 0xB1, 0xA2, 0xA6, 0xB6, 0xA0, 0xA4, 0xB4] : List Byte) := by
  decide
theorem witness_unknown_zero_byte : (machine []).Ready ∧ (machine []).mem.read 0xFFFC ∉
    ([0xAD, 0xBD, 0xB9, 0xAE, 0xBE, 0xAC, 0xBC, 0x20, 0xA9, 0xA5, 0xB5, 0xA1, 0xB1, 0xA2, 0xA6, 0xB6, 0xA0, 0xA4, 0xB4] : List Byte) := by decide
theorem witness_ResetGivesTheSpecsValues : (loadedMachine [(0x0000, 0x01)]).run = .idle := by decide
theorem witness_HostBoundaryRefusesAsTheSpecSays : (machine []).run = .running 1 := by decide
theorem witness_HostPreloadsAndInspects : (loadedMachine [(0xFFFF, 0x01)]).run = .idle ∧ (0xFFFE : Word) ≠ 0xFFFF := by decide
theorem witness_ResetReadsNoVector : (0 : Int) < 1 ∧ decodeWindow 0xA9 0x42 0x00 = some (.ldaIm 0x42) ∧
    decodeWindow 0x00 0x00 0x00 = none := by decide
theorem witness_EveryStepKeepsMemoryCanonical : (machine [(0xFFFC, 0x20)]).MemoryCanonical ∧
    (stepped (machine [(0xFFFC, 0x20)])).isSome = true := by decide
theorem witness_host_call_keeps_memory_canonical : (loadedMachine [(0xFFFF, 0x07)]).MemoryCanonical ∧
    hostCall dispatchTable (some (loadedMachine [(0xFFFF, 0x07)])) .reset = .next (some State.reset, .done) :=
  ⟨by decide, rfl⟩
theorem witness_WordWriteIsLittleEndianAndReadsBack : (0xFE : Byte) ≠ 0xFF ∧
    (0x00FE : Word) = BitVec.ofNat 16 (0xFE : Byte).toNat ∧ (0x0100 : Word) ≠ 0x00FE ∧ (0x0100 : Word) ≠ 0x00FE + 1 := by
  decide
theorem witness_OpcodeTellsLengthAndDecodingIsTotal : (0x20 : Byte) ∈ ([0xAD, 0xBD, 0xB9, 0xAE, 0xBE, 0xAC, 0xBC, 0x20, 0xA9, 0xA5, 0xB5, 0xA1, 0xB1, 0xA2, 0xA6, 0xB6, 0xA0, 0xA4, 0xB4] : List Byte) ∧
    opcodeLength dispatchTable 0x20 ≤ [(0x00 : Byte), 0x40].length + 1 := by decide
theorem witness_DecodeOfEncodeIsTheInstruction : (Instr.ldaAbs 0xFFFF).wellFormed = true := by decide
theorem witness_EncodeOfDecodeIsTheBytes : decode [0xB6, 0xFF, 0x00] = .instr (.ldxZpy 0xFF) [0x00] := by decide
theorem witness_LoadFamilyEffect : Reg.x ≠ Reg.a ∧ Reg.y ≠ Reg.a := by decide
theorem witness_page_crossed : pageCrossed 0x44FF 0x01 = true ∧ pageCrossed 0x44FF 0x00 = false ∧
    pageCrossed 0xFFFF 0x01 = true := by decide
theorem witness_InstructionsChangeOnlyWhatTheyName : (ran (.ldaIm 0x00) State.reset).isSome = true ∧
    (ran (.jsr 0x0000) State.reset).isSome = true ∧ destination (.ldaIm 0x00) ≠ some .x ∧
    destination (.ldaIm 0x00) ≠ none ∧ destination (.jsr 0x0000) = none ∧
    (0x0102 : Word) ≠ addrOf (0x0100 + 0) ∧ (0x0102 : Word) ≠ addrOf (0x0101 + 0) := by decide
theorem witness_OnlyLoadsTouchFlagsAndOnlyZN : (stepped (machine [(0xFFFC, 0x20)])).isSome = true ∧
    ¬ ((machine [(0xFFFC, 0x20)]).Ready ∧ destinationAt (machine [(0xFFFC, 0x20)]) ≠ none) := by decide
theorem witness_LoadsSetZAndNFromTheirResult : destination (.ldyAbsx 0xFFFF) = some .y := by decide
theorem witness_AccumulatorIsWrittenByLdaAndReadByNothing : (stepped (machine [(0xFFFC, 0xA2)])).isSome = true ∧
    ¬ ((machine [(0xFFFC, 0xA2)]).Ready ∧ destinationAt (machine [(0xFFFC, 0xA2)]) = some .a) := by decide
theorem witness_StackPointerIsJsrsAlone : (machine [(0xFFFC, 0xA9)]).mem.read 0xFFFC ≠ 0x20 := by decide
theorem witness_ReportsAreAppendOnlyAndUnread : (stepped (machine [(0xFFFC, 0xEA)])).map State.reports =
    some [(0xFFFC, 0xEA)] ∧ (machine [(0xFFFC, 0xEA)]).Ready ∧ (machine [(0xFFFC, 0xEA)]).mem.read 0xFFFC ∉
    ([0xAD, 0xBD, 0xB9, 0xAE, 0xBE, 0xAC, 0xBC, 0x20, 0xA9, 0xA5, 0xB5, 0xA1, 0xB1, 0xA2, 0xA6, 0xB6, 0xA0, 0xA4, 0xB4] : List Byte) := by decide
theorem witness_reports_kept : (stepped (machine [(0xFFFC, 0x20)])).map State.reports = some [] ∧
    ¬ ((machine [(0xFFFC, 0x20)]).Ready ∧ decodeAt (machine [(0xFFFC, 0x20)]) = none) ∧
    (stepped (loadedMachine [])).isSome = true ∧ ¬ (loadedMachine []).Ready := by decide
theorem witness_image_replaced : hostCall dispatchTable (some (loadedMachine [(0x0000, 0x07)]))
    (.replaceImage [(0xFFFF, 0x01), (0xFFFF, 0x02)]) = .next (some (loadedMachine [(0xFFFF, 0x02)]), .done) ∧
    (loadedMachine [(0xFFFF, 0x02)]).mem.read 0x0000 = 0x00 := ⟨rfl, by decide⟩
theorem witness_PcAdvancesByTheLength : (Instr.ldxAbsy 0x0000).row.op = .load .x .absoluteY ∧
    (ran (.ldxAbsy 0x0000) State.reset).isSome = true ∧ (Instr.ldaIm 0x00).row.op = .load .a .immediate ∧
    (ran (.jsr 0x1234) State.reset).isSome = true := by decide
theorem witness_StackPointerStaysEven : (machine [(0xFFFC, 0x20)]).SpEven ∧
    (stepped (machine [(0xFFFC, 0x20)])).isSome = true ∧ State.SpEven { State.reset with sp := 0xFE } := by decide
theorem witness_host_call_keeps_sp_even : (loadedMachine []).SpEven ∧
    hostCall dispatchTable (some (loadedMachine [])) (.preload (.sp 0xFE)) =
      .next (some { loadedMachine [] with sp := 0xFE }, .done) ∧ (0xFE : Byte).toNat % 2 = 0 := ⟨by decide, rfl, by decide⟩
theorem witness_CounterEndsAtMostFiveBelowZero : State.CounterBounded { State.reset with run := .running (-5) } ∧
    (stepped { State.reset with run := .running (-5) }).isSome = true ∧ (machine []).run = .running 1 ∧ (0 : Int) < 1 :=
  ⟨fun r h => by cases h; decide, by decide, rfl, by decide⟩
theorem witness_IterationCostIsTheTablesColumns : (machine [(0xFFFC, 0xBD)]).run = .running 1 ∧ (0 : Int) < 1 := by decide
theorem witness_CpuWritesOnlyTheStackBytes : (stepped (machine [(0xFFFC, 0x20)])).map (fun t => t.mem.read 0x0100) =
    some 0xFE ∧ (machine [(0xFFFC, 0x20)]).mem.read 0x0100 = 0x00 := by decide
theorem witness_StepRunsTheDecodedInstruction : (machine [(0xFFFC, 0xA9), (0xFFFD, 0x42)]).Ready ∧
    decode [0xA9, 0x42, 0x00] = .instr (.ldaIm 0x42) [0x00] ∧
    (machine [(0xFFFC, 0xA9), (0xFFFD, 0x42)]).mem.read 0xFFFD = 0x42 := by decide
theorem witness_EncodedInstructionAtPcRuns : ∀ k b, (encode (.jsr 0x1234))[k]? = some b →
    ({ machine [(0xFFFF, 0x20), (0x0000, 0x34), (0x0001, 0x12)] with pc := 0xFFFF } : State).mem.read
      (0xFFFF + BitVec.ofNat 16 k) = b := by
  intro k b h
  match k with
  | 0 => exact (by decide : _ = (0x20 : Byte)).trans (Option.some.inj h)
  | 1 => exact (by decide : _ = (0x34 : Byte)).trans (Option.some.inj h)
  | 2 => exact (by decide : _ = (0x12 : Byte)).trans (Option.some.inj h)
  | _ + 3 => cases h
theorem witness_placed_word : decodeTableWord 24 0x123420 = some (.jsr 0x1234) := by decide
theorem witness_StepIsTheSpecsIteration : (machine [(0xFFFC, 0xB1)]).Ready := by decide
theorem witness_IdleHoldsAndTheLoopExits : State.reset.run = .idle ∧
    ({ State.reset with run := .running 0 } : State).run = .running 0 ∧ (0 : Int) ≤ 0 := by decide
theorem witness_ExecuteZeroDoesNothingAndOneRunsOneIteration : (loadedMachine [(0xFFFC, 0x20)]).run = .idle := by decide
theorem witness_ExecuteIsRepeatedStepping : (loadedMachine [(0xFFFC, 0xAD)]).run = .idle := by decide
theorem witness_ExecuteReturnsWithinTheLastCost : (loadedMachine [(0xFFFC, 0xA1)]).run = .idle ∧ 0 < 1 := by decide
theorem witness_execute_zero_returns_zero : (loadedMachine []).run = .idle ∧
    (beginCall 0 (loadedMachine [])).run = .running 0 ∧ (executed 0 (loadedMachine [])).map Prod.fst = some 0 := by decide
theorem witness_EveryCallTerminatesWithinItsBudget : (beginCall 3 State.reset).run = .running 3 ∧
    State.reset.run = .idle := by decide

end Sys2Proof.Tests
end

section
/-! PROOFS. Facts about instructions and steps that the statements on the machine's state need: the effect of a load as a
table, the fields after a call, what a step reads, and what a host operation can answer. -/

namespace Sys2Proof.Machine

/-! ## The fields after a call -/

@[simp] theorem callTo_pc (target : Word) (s : State) : (callTo target s).pc = target := rfl
@[simp] theorem callTo_sp (target : Word) (s : State) : (callTo target s).sp = spAdvance s.sp := rfl
@[simp] theorem callTo_getReg (target : Word) (s : State) (r : Reg) : (callTo target s).getReg r = s.getReg r := by
  cases r <;> rfl
@[simp] theorem callTo_flagC (target : Word) (s : State) : (callTo target s).flagC = s.flagC := rfl
@[simp] theorem callTo_flagZ (target : Word) (s : State) : (callTo target s).flagZ = s.flagZ := rfl
@[simp] theorem callTo_flagI (target : Word) (s : State) : (callTo target s).flagI = s.flagI := rfl
@[simp] theorem callTo_flagD (target : Word) (s : State) : (callTo target s).flagD = s.flagD := rfl
@[simp] theorem callTo_flagB (target : Word) (s : State) : (callTo target s).flagB = s.flagB := rfl
@[simp] theorem callTo_flagV (target : Word) (s : State) : (callTo target s).flagV = s.flagV := rfl
@[simp] theorem callTo_flagN (target : Word) (s : State) : (callTo target s).flagN = s.flagN := rfl
@[simp] theorem callTo_run (target : Word) (s : State) : (callTo target s).run = s.run.debit 3 := by rw [callTo_eq]
@[simp] theorem callTo_reports (target : Word) (s : State) : (callTo target s).reports = s.reports := rfl
@[simp] theorem callTo_mem (target : Word) (s : State) :
    (callTo target s).mem = s.mem.writeWord (retAddr s.pc) (stackAddr s.sp) := rfl

/-! ## What a load answers, as a table -/

/-- The cycles a load debits after its bytes were fetched, and the byte it loads (spec/42_load_register.md R201-R218); JSR
loads nothing. -/
def loadEffect (i : Instr) (m : Memory) (x y : Byte) : Nat × Byte :=
  match i with
  | .ldaIm v | .ldxIm v | .ldyIm v => (0, v)
  | .ldaZp zp | .ldxZp zp | .ldyZp zp => (1, m.read (zeroPageAddr zp.toNat))
  | .ldaZpx zp | .ldyZpx zp => (2, m.read (zeroPageAddr (zp.toNat + x.toNat)))
  | .ldxZpy zp => (2, m.read (zeroPageAddr (zp.toNat + y.toNat)))
  | .ldaAbs abs | .ldxAbs abs | .ldyAbs abs => (1, m.read abs)
  | .ldaAbsx abs | .ldyAbsx abs => ((if pageCrossed abs x then 1 else 0) + 1, m.read (addrOf (abs.toNat + x.toNat)))
  | .ldaAbsy abs | .ldxAbsy abs => ((if pageCrossed abs y then 1 else 0) + 1, m.read (addrOf (abs.toNat + y.toNat)))
  | .ldaIndx zp => (4, m.read (zeroPageWord m (zp.toNat + x.toNat)))
  | .ldaIndy zp => (2 + (if pageCrossed (zeroPageWord m zp.toNat) y then 1 else 0) + 1,
      m.read (addrOf ((zeroPageWord m zp.toNat).toNat + y.toNat)))
  | .jsr _ => (0, 0x00)

theorem loadInto_immediate (r : Reg) (v : Byte) (s : State) :
    loadInto r (immediateForm v s.fetchedF2) = loaded s 2 0 r v := by
  rw [State.fetchedF2_eq, immediateForm_eq, loadInto_value_loaded]

theorem loadInto_zeroPage (r : Reg) (zp : Byte) (s : State) :
    loadInto r (zeroPageForm zp s.fetchedF2) = loaded s 2 1 r (s.mem.read (zeroPageAddr zp.toNat)) := by
  rw [State.fetchedF2_eq, zeroPageForm_eq, loadInto_addr_loaded]

theorem loadInto_zeroPageIndexed (r : Reg) (zp index : Byte) (s : State) :
    loadInto r (zeroPageIndexedForm zp index s.fetchedF2) =
      loaded s 2 2 r (s.mem.read (zeroPageAddr (zp.toNat + index.toNat))) := by
  rw [State.fetchedF2_eq, zeroPageIndexedForm_eq, loadInto_addr_debit_loaded]

theorem loadInto_absolute (r : Reg) (abs : Word) (s : State) :
    loadInto r (absoluteForm abs s.fetchedF3) = loaded s 3 1 r (s.mem.read abs) := by
  rw [State.fetchedF3_eq, absoluteForm_eq, loadInto_addr_loaded]

theorem loadInto_indexed (r : Reg) (abs : Word) (index : Byte) (s : State) :
    loadInto r (indexedForm abs index s.fetchedF3) =
      loaded s 3 ((if pageCrossed abs index then 1 else 0) + 1) r (s.mem.read (addrOf (abs.toNat + index.toNat))) := by
  rw [State.fetchedF3_eq, indexedForm_eq, loadInto_addr_debit_loaded]

theorem loadInto_indirectX (r : Reg) (zp : Byte) (s : State) :
    loadInto r (indirectXForm zp s.fetchedF2) =
      loaded s 2 4 r (s.mem.read (zeroPageWord s.mem (zp.toNat + s.x.toNat))) := by
  rw [State.fetchedF2_eq, indirectXForm_eq, loadInto_addr_debit_loaded, State.fetched_mem, State.fetched_x]

theorem loadInto_indirectY (r : Reg) (zp : Byte) (s : State) :
    loadInto r (indirectYForm zp s.fetchedF2) =
      loaded s 2 (2 + (if pageCrossed (zeroPageWord s.mem zp.toNat) s.y then 1 else 0) + 1) r
        (s.mem.read (addrOf ((zeroPageWord s.mem zp.toNat).toNat + s.y.toNat))) := by
  rw [State.fetchedF2_eq, indirectYForm_eq, loadInto_addr_debit_loaded, State.fetched_mem, State.fetched_y]

/-- A load answers its row of the table. -/
theorem exec_load {i : Instr} {r : Reg} (h : destination i = some r) (s : State) :
    exec i s = .next (loaded s i.length (loadEffect i s.mem s.x s.y).1 r (loadEffect i s.mem s.x s.y).2) := by
  cases i with
  | jsr target => cases h
  | ldaIm v => cases h; exact congrArg Host.Outcome.next (loadInto_immediate .a v s)
  | ldxIm v => cases h; exact congrArg Host.Outcome.next (loadInto_immediate .x v s)
  | ldyIm v => cases h; exact congrArg Host.Outcome.next (loadInto_immediate .y v s)
  | ldaZp zp => cases h; exact congrArg Host.Outcome.next (loadInto_zeroPage .a zp s)
  | ldxZp zp => cases h; exact congrArg Host.Outcome.next (loadInto_zeroPage .x zp s)
  | ldyZp zp => cases h; exact congrArg Host.Outcome.next (loadInto_zeroPage .y zp s)
  | ldaZpx zp => cases h; exact congrArg Host.Outcome.next (loadInto_zeroPageIndexed .a zp s.x s)
  | ldxZpy zp => cases h; exact congrArg Host.Outcome.next (loadInto_zeroPageIndexed .x zp s.y s)
  | ldyZpx zp => cases h; exact congrArg Host.Outcome.next (loadInto_zeroPageIndexed .y zp s.x s)
  | ldaAbs abs => cases h; exact congrArg Host.Outcome.next (loadInto_absolute .a abs s)
  | ldxAbs abs => cases h; exact congrArg Host.Outcome.next (loadInto_absolute .x abs s)
  | ldyAbs abs => cases h; exact congrArg Host.Outcome.next (loadInto_absolute .y abs s)
  | ldaAbsx abs => cases h; exact congrArg Host.Outcome.next (loadInto_indexed .a abs s.x s)
  | ldaAbsy abs => cases h; exact congrArg Host.Outcome.next (loadInto_indexed .a abs s.y s)
  | ldxAbsy abs => cases h; exact congrArg Host.Outcome.next (loadInto_indexed .x abs s.y s)
  | ldyAbsx abs => cases h; exact congrArg Host.Outcome.next (loadInto_indexed .y abs s.x s)
  | ldaIndx zp => cases h; exact congrArg Host.Outcome.next (loadInto_indirectX .a zp s)
  | ldaIndy zp => cases h; exact congrArg Host.Outcome.next (loadInto_indirectY .a zp s)

/-- The length of a load is its mode's (spec/30_encoding.md R91, R92). -/
theorem length_of_load {i : Instr} {r : Reg} {m : Mode} (h : i.row.op = .load r m) :
    i.length = if m = .absolute ∨ m = .absoluteX ∨ m = .absoluteY then 3 else 2 := by
  rw [Instr.length, h]
  cases m <;> rfl

/-- JSR is the call, after its three bytes (spec/43_subroutine_call.md R230). -/
theorem exec_jsr (target : Word) (s : State) : exec (.jsr target) s = .next (callTo target (s.fetched 3)) := by
  rw [exec, execJsr, State.fetchedF3_eq]

/-- The one instruction that loads no register is JSR. -/
theorem destination_eq_none {i : Instr} : destination i = none ↔ ∃ target, i = .jsr target := by
  cases i <;> simp [destination]

/-! ## The instruction at `pc` -/

theorem destinationAt_of_some {s : State} {i : Instr} (h : decodeAt s = some i) : destinationAt s = destination i := by
  rw [destinationAt, h, Option.bind_some]

theorem destinationAt_of_jsr {s : State} {target : Word} (h : decodeAt s = some (.jsr target)) :
    destinationAt s = none := destinationAt_of_some h

theorem destinationAt_of_none {s : State} (h : decodeAt s = none) : destinationAt s = none := by
  rw [destinationAt, h, Option.bind_none]

/-- A byte outside a list that has every opcode of the table is an unknown opcode (spec/30_encoding.md R105). -/
theorem decodeAt_eq_none_of_not_mem {s : State} {listed : List Byte}
    (hall : ∀ op ∈ dispatchTable.map Row.opcode, op ∈ listed) (h : s.mem.read s.pc ∉ listed) : decodeAt s = none :=
  decodeWindow_none _ _ (lookup_eq_none.mpr fun hmem => h (hall _ hmem))

/-- JSR stands at `pc` exactly where its opcode does (spec/30_encoding.md R100). -/
theorem decodeAt_jsr_iff {s : State} : (∃ target, decodeAt s = some (.jsr target)) ↔ s.mem.read s.pc = 0x20 := by
  refine ⟨fun ⟨_, h⟩ => (decodeWindow_opcode h).symm, fun h =>
    ⟨joinBytes (s.mem.read (s.pc + 2)) (s.mem.read (s.pc + 1)), ?_⟩⟩
  rw [decodeAt, h]
  exact decodeWindow_some (row := jsrRow) rfl rfl

/-- A load stands at `pc` nowhere where JSR's opcode does. -/
theorem opcode_ne_jsr_of_destinationAt {s : State} {r : Reg} (h : destinationAt s = some r) : s.mem.read s.pc ≠ 0x20 := by
  intro hop
  obtain ⟨target, hi⟩ := decodeAt_jsr_iff.mpr hop
  rw [destinationAt_of_jsr hi] at h
  cases h

/-! ## What a step reads -/

/-- An update of fields that no test, fetch, decoder or address reads goes through a step as `f`, if it goes through a
load, the call, the report and the loop's exit: `step_commutes` with the instructions split into loads and the call. -/
theorem step_commutes_unread (g : State → State) (f : State → State → State)
    (hreads : ∀ s, (g s).run = s.run ∧ (g s).mem = s.mem ∧ (g s).pc = s.pc ∧ (g s).x = s.x ∧ (g s).y = s.y)
    (hidle : ∀ s, ¬ s.Ready → f s s = g s) (hexit : ∀ s, ¬ s.Ready → f s (endCall s) = endCall (g s))
    (hload : ∀ s k n r v, s.Ready → destinationAt s = some r → loaded (g s) k n r v = f s (loaded s k n r v))
    (hcall : ∀ s target, s.Ready → decodeAt s = some (.jsr target) →
      callTo target ((g s).fetched 3) = f s (callTo target (s.fetched 3)))
    (hunknown : ∀ s, s.Ready → decodeAt s = none →
      f s ((s.fetched 1).report s.pc (s.mem.read s.pc)) = ((g s).fetched 1).report s.pc (s.mem.read s.pc))
    (s : State) : step (g s) = mapNext (f s) (step s) := by
  obtain ⟨hrun, hmem, hpc, hx, hy⟩ := by simpa only [forall_and] using hreads
  refine step_commutes g f hrun hmem hpc hidle hexit (fun s i hr hi => ?_) hunknown s
  cases hd : destination i with
  | none =>
    obtain ⟨target, rfl⟩ := destination_eq_none.mp hd
    rw [exec_jsr, exec_jsr, mapNext, hcall s target hr hi]
  | some r =>
    rw [exec_load hd, exec_load hd, hmem, hx, hy, mapNext, hload s _ _ r _ hr ((destinationAt_of_some hi).trans hd)]

/-- An update that passes through every step but those of a ready machine with `P`, which answer `f`. -/
theorem step_commutes_unless (g : State → State) (f : State → State → State) (P : State → Prop) [DecidablePred P]
    (hreads : ∀ s, (g s).run = s.run ∧ (g s).mem = s.mem ∧ (g s).pc = s.pc ∧ (g s).x = s.x ∧ (g s).y = s.y)
    (hexit : ∀ s, g (endCall s) = endCall (g s))
    (hload : ∀ s k n r v, destinationAt s = some r →
      loaded (g s) k n r v = if P s then f s (loaded s k n r v) else g (loaded s k n r v))
    (hcall : ∀ s target, decodeAt s = some (.jsr target) → callTo target ((g s).fetched 3) =
      if P s then f s (callTo target (s.fetched 3)) else g (callTo target (s.fetched 3)))
    (hunknown : ∀ s, decodeAt s = none → ¬ P s)
    (hreport : ∀ s addr b, g ((s.fetched 1).report addr b) = ((g s).fetched 1).report addr b)
    (s : State) : step (g s) = mapNext (fun t => if s.Ready ∧ P s then f s t else g t) (step s) := by
  refine step_commutes_unread g (fun s t => if s.Ready ∧ P s then f s t else g t) hreads
    (fun s hr => if_neg (mt And.left hr)) (fun s hr => (if_neg (mt And.left hr)).trans (hexit s))
    (fun s k n r v hr hd => ?_) (fun s target hr hi => ?_)
    (fun s _ hi => (if_neg (mt And.right (hunknown s hi))).trans (hreport s _ _)) s
  · exact (hload s k n r v hd).trans (if_congr (and_iff_right hr) rfl rfl).symm
  · exact (hcall s target hi).trans (if_congr (and_iff_right hr) rfl rfl).symm

/-! ## The cost of a step -/

/-- A ready machine's step debits between 1 and 6 cycles (spec/30_encoding.md R100). -/
theorem step_ready_cost {s : State} {remaining : Int} (hr : s.run = .running remaining) (hpos : 0 < remaining) :
    ∃ (t : State) (cost : Nat), step s = .next t ∧ 1 ≤ cost ∧ cost ≤ 6 ∧ t.run = .running (remaining - cost) := by
  have hready : s.Ready := (RunState.live_iff _).mpr ⟨remaining, hr, hpos⟩
  cases hi : decodeAt s with
  | none => exact ⟨_, 1, step_ready_none hready hi, le_rfl, by decide, by simp [hr]⟩
  | some i =>
    rw [step_ready_some hready hi]
    obtain ⟨r, v, n, -, he, hcost⟩ | ⟨target, -, he⟩ := exec_cases i s
    · obtain ⟨hlow, hhigh⟩ := cost_bounds i s
      exact ⟨_, i.length + n, he, by omega, by omega, by rw [loaded_run, hr, RunState.debit_running]⟩
    · exact ⟨_, 6, he, by decide, le_rfl, by simp [hr, sub_sub]⟩

/-- A debiting step starts above zero, so it ends at -5 or above (spec/10_state.md R45). -/
theorem step_ready_counterBounded {s t : State} (hready : s.Ready) (h : step s = .next t) : t.CounterBounded := by
  obtain ⟨before, hr, hpos⟩ := hready.running
  obtain ⟨u, cost, hstep, -, hhigh, hrun⟩ := step_ready_cost hr hpos
  rw [hstep] at h
  cases h
  intro remaining hrem
  rw [hrun, RunState.running.injEq] at hrem
  omega

/-! ## The report log (spec/10_state.md R48) -/

/-- A ready machine at an unknown opcode logs its address and its byte (spec/41_dispatch_execute.md R174). -/
theorem step_reports_unknown {s t : State} (hr : s.Ready) (hi : decodeAt s = none) (h : step s = .next t) :
    t.reports = s.reports ++ [(s.pc, s.mem.read s.pc)] := by
  rw [step_ready_none hr hi] at h
  cases h
  rfl

/-! ## What a host operation can answer -/

/-- A host operation that is accepted finds the machine idle, and leaves what its rule says (spec/41_dispatch_execute.md
R180-R186). -/
theorem hostCall_cases {table : List Row} {s t : State} {call : HostCall} {reply : HostReply}
    (h : hostCall table (some s) call = .next (some t, reply)) :
    s.run = .idle ∧
      ((call = .reset ∧ t = hostReset s) ∨
      (∃ budget, call = .execute budget ∧ t = endCall (whileLoop table budget (beginCall budget s))) ∨
      (call = .inspect ∧ t = s) ∨
      (∃ w, call = .preload w ∧ t = applyPreload w s) ∨
      (∃ cells, call = .replaceImage cells ∧ t = { s with mem := imageOf cells })) := by
  cases hr : s.run with
  | running remaining => simp only [hostCall, hostCallOn, hr, reduceCtorEq] at h
  | idle =>
    simp only [hostCall, hostCallOn, execute, hr] at h
    refine ⟨rfl, ?_⟩
    cases call with
    | reset => cases h; exact .inl ⟨rfl, rfl⟩
    | execute budget => cases h; exact .inr (.inl ⟨budget, rfl, rfl⟩)
    | inspect => cases h; exact .inr (.inr (.inl ⟨rfl, rfl⟩))
    | preload w => cases h; exact .inr (.inr (.inr (.inl ⟨w, rfl, rfl⟩)))
    | replaceImage cells => cases h; exact .inr (.inr (.inr (.inr ⟨cells, rfl, rfl⟩)))

/-! ## The stack pointer's parity (spec/10_state.md R39) -/

theorem spEven_spAdvance {sp : Byte} (h : sp.toNat % 2 = 0) : (spAdvance sp).toNat % 2 = 0 := by
  rw [toNat_spAdvance]
  omega

/-- A call keeps `SP` even. -/
theorem callTo_spEven {s : State} (target : Word) (h : s.SpEven) : (callTo target (s.fetched 3)).SpEven :=
  spEven_spAdvance h

/-- A step keeps `SP` even. -/
theorem step_spEven {s t : State} (hs : s.SpEven) (h : step s = .next t) : t.SpEven := by
  obtain rfl | rfl | ⟨k, n, r, v, -, rfl⟩ | ⟨target, -, rfl⟩ | rfl := step_effect h
  · exact hs
  · exact hs
  · rwa [State.SpEven, loaded_sp]
  · exact callTo_spEven target hs
  · exact hs

/-- An iteration under any table keeps `SP` even. -/
theorem iterate_spEven (table : List Row) {s : State} (hs : s.SpEven) : (iterate table s).SpEven := by
  obtain ⟨k, n, r, v, h⟩ | ⟨target, h⟩ | h := iterate_cases table s <;> rw [h]
  · rwa [State.SpEven, loaded_sp]
  · exact callTo_spEven target hs
  · exact hs

/-- A host write keeps `SP` even unless it writes an odd `SP`. -/
theorem applyPreload_spEven {w : Preload} {s : State} (hs : s.SpEven) (hw : ∀ v, w = .sp v → v.toNat % 2 = 0) :
    (applyPreload w s).SpEven := by
  cases w with
  | sp v => exact hw v rfl
  | reg r v => rwa [State.SpEven, applyPreload, State.setReg_sp]
  | pc _ | flagC _ | flagZ _ | flagI _ | flagD _ | flagB _ | flagV _ | flagN _ | mem _ _ => exact hs

theorem toNat_stackAddr (sp : Byte) : (stackAddr sp).toNat = 0x0100 + sp.toNat := by
  have := sp.isLt
  rw [stackAddr_eq, toNat_addrOf]
  omega

theorem toNat_stackAddr_add_one (sp : Byte) : (stackAddr sp + 1).toNat = 0x0101 + sp.toNat := by
  have := sp.isLt
  rw [stackAddr_add_one, toNat_addrOf]
  omega

/-! ## What the statements' updates are -/

/-- The inert flags set (spec/10_state.md R43). -/
def State.withInertFlags (c i d b v : Bool) (s : State) : State :=
  { s with flagC := c, flagI := i, flagD := d, flagB := b, flagV := v }

/-- `Z` and `N` set. -/
def State.withZN (z n : Bool) (s : State) : State := { s with flagZ := z, flagN := n }

/-- An earlier log put before the present one. -/
def State.withEarlierReports (earlier : List (Word × Byte)) (s : State) : State :=
  { s with reports := earlier ++ s.reports }

/-- `SP` set. -/
def State.withSp (v : Byte) (s : State) : State := { s with sp := v }

theorem loaded_withInertFlags (c i d b f : Bool) (s : State) (k n : Nat) (r : Reg) (v : Byte) :
    loaded (s.withInertFlags c i d b f) k n r v = (loaded s k n r v).withInertFlags c i d b f := by cases r <;> rfl

/-- A load overwrites `Z` and `N` (spec/42_load_register.md R200). -/
theorem loaded_withZN (z m : Bool) (s : State) (k n : Nat) (r : Reg) (v : Byte) :
    loaded (s.withZN z m) k n r v = loaded s k n r v := by cases r <;> rfl

/-- LDA overwrites `A` (R200). -/
theorem loaded_a_setReg_a (w : Byte) (s : State) (k n : Nat) (v : Byte) :
    loaded (s.setReg .a w) k n .a v = loaded s k n .a v := rfl

/-- LDX and LDY leave `A` (R200). -/
theorem loaded_setReg_a_of_ne (w : Byte) (s : State) (k n : Nat) {r : Reg} (v : Byte) (h : r ≠ .a) :
    loaded (s.setReg .a w) k n r v = (loaded s k n r v).setReg .a w := by
  cases r with
  | a => exact absurd rfl h
  | x => rfl
  | y => rfl

theorem loaded_withEarlierReports (earlier : List (Word × Byte)) (s : State) (k n : Nat) (r : Reg) (v : Byte) :
    loaded (s.withEarlierReports earlier) k n r v = (loaded s k n r v).withEarlierReports earlier := by cases r <;> rfl

theorem report_withEarlierReports (earlier : List (Word × Byte)) (s : State) (addr : Word) (b : Byte) :
    (s.withEarlierReports earlier).report addr b = (s.report addr b).withEarlierReports earlier := by
  simp only [State.withEarlierReports, State.report, List.append_assoc]

theorem loaded_withSp (sp : Byte) (s : State) (k n : Nat) (r : Reg) (v : Byte) :
    loaded (s.withSp sp) k n r v = (loaded s k n r v).withSp sp := by cases r <;> rfl

end Sys2Proof.Machine
end

section
/-! PROOFS. The obligations on the machine's state (spec/10_state.md). -/

namespace Sys2Proof.Machine

/-! ## What passes through a step -/

/-- A step neither writes nor reads the inert flags (spec/10_state.md R43). -/
theorem step_withInertFlags (c i d b v : Bool) (s : State) :
    step (s.withInertFlags c i d b v) = mapNext (State.withInertFlags c i d b v) (step s) :=
  step_commutes_unread (State.withInertFlags c i d b v) (fun _ => State.withInertFlags c i d b v)
    (fun _ => ⟨rfl, rfl, rfl, rfl, rfl⟩) (fun _ _ => rfl) (fun _ _ => rfl)
    (fun s k n r w _ _ => loaded_withInertFlags c i d b v s k n r w) (fun _ _ _ _ => rfl) (fun _ _ _ => rfl) s

/-- Settles O43: the inert flags are written by no operation a step is made of, and read by none. -/
theorem inertFlagsAffectNothing : Obligations.InertFlagsAffectNothing :=
  ⟨fun s c i d b v => step_withInertFlags c i d b v s, fun _ => ⟨rfl, rfl, rfl, rfl, rfl⟩,
    fun _ _ => ⟨rfl, rfl, rfl, rfl, rfl⟩⟩

/-- Settles O48: a step adds 0 or 2 to `SP`, so does every iteration of a host's call, and reset clears it. -/
theorem stackPointerStaysEven : Obligations.StackPointerStaysEven := by
  refine ⟨rfl, fun s t => step_spEven, fun table s t call reply hs hcall h => ?_, fun s hs => ?_⟩
  · obtain ⟨-, ⟨-, rfl⟩ | ⟨budget, -, rfl⟩ | ⟨-, rfl⟩ | ⟨w, rfl, rfl⟩ | ⟨cells, -, rfl⟩⟩ := hostCall_cases h
    · exact (rfl : State.reset.SpEven)
    · exact whileLoop_keeps (P := State.SpEven) table (fun _ => iterate_spEven table) budget hs
    · exact hs
    · exact applyPreload_spEven hs fun v hv => hcall v (congrArg HostCall.preload hv)
    · exact hs
  · have hlt := s.sp.isLt
    rw [State.SpEven] at hs
    rw [toNat_stackAddr, toNat_stackAddr_add_one]
    omega

/-- Settles O49: a step that debits starts above zero and debits at most six. -/
theorem counterEndsAtMostFiveBelowZero : Obligations.CounterEndsAtMostFiveBelowZero := by
  refine ⟨fun s t hs h => ?_, fun s remaining hr hpos => ?_⟩
  · obtain ⟨-, rfl⟩ | ⟨_, -, -, rfl⟩ | ⟨hready, -⟩ | ⟨hready, -⟩ := step_cases h
    · exact hs
    · exact fun _ hrem => nomatch hrem
    · exact step_ready_counterBounded hready h
    · exact step_ready_counterBounded hready h
  · obtain ⟨t, cost, hstep, hlow, hhigh, hrun⟩ := step_ready_cost hr hpos
    exact ⟨t, cost, hstep, hlow, hhigh, hrun, by omega⟩

/-- Settles O40: the frame of a load and the frame of the call. -/
theorem instructionsChangeOnlyWhatTheyName : Obligations.InstructionsChangeOnlyWhatTheyName := by
  intro i s t h
  cases hd : destination i with
  | some r =>
    rw [exec_load hd] at h
    cases h
    refine ⟨fun q hq => loaded_getReg_ne _ _ _ _ fun hqr => hq (congrArg some hqr.symm), by simp, by simp, fun _ => by simp,
      fun hnone => nomatch hnone⟩
  | none =>
    obtain ⟨target, rfl⟩ := destination_eq_none.mp hd
    rw [exec_jsr] at h
    cases h
    refine ⟨by simp, by simp, by simp, fun hsome => absurd rfl hsome, fun _ => ⟨rfl, rfl, fun addr hlo hhi => ?_⟩⟩
    rw [callTo_mem, State.fetched_sp, State.fetched_mem]
    exact Memory.read_writeWord_ne _ _ (stackAddr_eq _ ▸ hlo) (stackAddr_add_one _ ▸ hhi)

/-- Settles O41: an instruction's flags are O40's, and nothing else a step can do writes one. -/
theorem onlyLoadsTouchFlagsAndOnlyZN : Obligations.OnlyLoadsTouchFlagsAndOnlyZN := by
  intro s t h
  obtain ⟨-, rfl⟩ | ⟨_, -, -, rfl⟩ | ⟨hr, i, hi, he⟩ | ⟨-, -, rfl⟩ := step_cases h
  · exact ⟨⟨rfl, rfl, rfl, rfl, rfl⟩, fun _ => ⟨rfl, rfl⟩⟩
  · exact ⟨⟨rfl, rfl, rfl, rfl, rfl⟩, fun _ => ⟨rfl, rfl⟩⟩
  · obtain ⟨-, hinert, -, -, hjsr⟩ := instructionsChangeOnlyWhatTheyName i s t he
    refine ⟨hinert, fun hno => ?_⟩
    have hnone : destination i = none := by
      rw [← destinationAt_of_some hi]
      exact not_not.mp fun hne => hno ⟨hr, hne⟩
    obtain ⟨hz, hn, -⟩ := hjsr hnone
    exact ⟨hz, hn⟩
  · exact ⟨⟨rfl, rfl, rfl, rfl, rfl⟩, fun _ => ⟨rfl, rfl⟩⟩

/-- A load overwrites `Z` and `N`; every other step passes them through (R41, R42). -/
theorem step_withZN (z n : Bool) (s : State) :
    step (s.withZN z n) = mapNext (fun t => if s.Ready ∧ destinationAt s ≠ none then t else t.withZN z n) (step s) := by
  refine step_commutes_unless (State.withZN z n) (fun _ t => t) (fun s => destinationAt s ≠ none)
    (fun _ => ⟨rfl, rfl, rfl, rfl, rfl⟩) (fun _ => rfl) (fun s k m r v hd => ?_) (fun s target hi => ?_)
    (fun s hi => not_not.mpr (destinationAt_of_none hi)) (fun _ _ _ => rfl) s
  · rw [if_pos (by simp [hd]), loaded_withZN]
  · rw [if_neg (not_not.mpr (destinationAt_of_jsr hi))]
    rfl

/-- Settles O42: a load overwrites `Z` and `N`, and every other step carries them through. -/
theorem loadsSetZAndNFromTheirResult : Obligations.LoadsSetZAndNFromTheirResult :=
  ⟨fun i r s h => ⟨_, exec_load h s, by simp, by simp⟩, fun s z n => step_withZN z n s, rfl, rfl⟩

/-- LDA overwrites `A`; every other step passes it through (R31). -/
theorem step_setReg_a (w : Byte) (s : State) :
    step (s.setReg .a w) =
      mapNext (fun t => if s.Ready ∧ destinationAt s = some .a then t else t.setReg .a w) (step s) := by
  refine step_commutes_unless (fun s => s.setReg .a w) (fun _ t => t) (fun s => destinationAt s = some .a)
    (fun _ => ⟨rfl, rfl, rfl, rfl, rfl⟩) (fun _ => rfl) (fun s k n r v hd => ?_) (fun s target hi => ?_)
    (fun s hi => by simp [destinationAt_of_none hi]) (fun _ _ _ => rfl) s
  · by_cases ha : r = .a
    · subst ha
      rw [if_pos hd, loaded_a_setReg_a]
    · rw [if_neg (by simp [hd, ha]), loaded_setReg_a_of_ne w s k n v ha]
  · rw [if_neg (by simp [destinationAt_of_jsr hi])]
    rfl

/-- Settles O44: only a load of `A` writes it, and no step reads it. -/
theorem accumulatorIsWrittenByLdaAndReadByNothing : Obligations.AccumulatorIsWrittenByLdaAndReadByNothing := by
  refine ⟨fun s t h hno => ?_, fun s v => step_setReg_a v s, fun _ => rfl⟩
  obtain ⟨-, rfl⟩ | ⟨_, -, -, rfl⟩ | ⟨hr, i, hi, he⟩ | ⟨-, -, rfl⟩ := step_cases h
  · rfl
  · rfl
  · obtain ⟨hregs, -⟩ := instructionsChangeOnlyWhatTheyName i s t he
    exact hregs .a fun hd => hno ⟨hr, (destinationAt_of_some hi).trans hd⟩
  · rfl

/-- A step from another `SP`: a call goes to the same target from there, and every other step carries `SP` through. -/
theorem step_withSp (sp : Byte) (s : State) :
    step (s.withSp sp) = mapNext (fun t => if s.Ready ∧ s.mem.read s.pc = 0x20 then callTo t.pc ((s.withSp sp).fetched 3)
      else t.withSp sp) (step s) := by
  refine step_commutes_unless (State.withSp sp) (fun s t => callTo t.pc ((s.withSp sp).fetched 3))
    (fun s => s.mem.read s.pc = 0x20) (fun _ => ⟨rfl, rfl, rfl, rfl, rfl⟩) (fun _ => rfl)
    (fun s k n r v hd => ?_) (fun s target hi => ?_) (fun s hi hop => ?_) (fun _ _ _ => rfl) s
  · rw [if_neg (opcode_ne_jsr_of_destinationAt hd), loaded_withSp]
  · rw [if_pos (decodeAt_jsr_iff.mp ⟨target, hi⟩), callTo_pc]
  · obtain ⟨target, hjsr⟩ := decodeAt_jsr_iff.mpr hop
    rw [hi] at hjsr
    cases hjsr

/-- Settles O45: where JSR's opcode does not stand at `pc`, a step carries `SP` through. -/
theorem stackPointerIsJsrsAlone : Obligations.StackPointerIsJsrsAlone := by
  refine ⟨fun sp => ⟨toNat_stackAddr sp, toNat_spAdvance sp⟩, fun s v h => ?_,
    fun target s => ⟨_, exec_jsr target s, toNat_spAdvance s.sp⟩, fun _ _ => ⟨rfl, rfl⟩⟩
  exact (step_withSp v s).trans (congrArg (mapNext · (step s)) (funext fun _ => if_neg fun hjsr => h hjsr.2))

/-- A step does not read the log, and appends to it only at its end (R48). -/
theorem step_withEarlierReports (earlier : List (Word × Byte)) (s : State) :
    step (s.withEarlierReports earlier) = mapNext (State.withEarlierReports earlier) (step s) :=
  step_commutes_unread (State.withEarlierReports earlier) (fun _ => State.withEarlierReports earlier)
    (fun _ => ⟨rfl, rfl, rfl, rfl, rfl⟩) (fun _ _ => rfl) (fun _ _ => rfl)
    (fun s k n r v _ _ => loaded_withEarlierReports earlier s k n r v) (fun _ _ _ _ => rfl)
    (fun s _ _ => (report_withEarlierReports earlier (s.fetched 1) _ _).symm) s

/-- The log grows by an unknown opcode only: an instruction leaves it (O40), and so do the exit and the idle machine. -/
theorem step_reports_kept {s t : State} (h : step s = .next t) (hno : ¬ (s.Ready ∧ decodeAt s = none)) :
    t.reports = s.reports := by
  obtain ⟨-, rfl⟩ | ⟨_, -, -, rfl⟩ | ⟨-, i, -, he⟩ | ⟨hr, hi, -⟩ := step_cases h
  · rfl
  · rfl
  · obtain ⟨-, -, hreports, -⟩ := instructionsChangeOnlyWhatTheyName i s t he
    exact hreports
  · exact absurd ⟨hr, hi⟩ hno

/-- Settles O46: of the four things a step can do, only the unknown opcode's report touches the log. -/
theorem reportsAreAppendOnlyAndUnread : Obligations.ReportsAreAppendOnlyAndUnread := by
  refine ⟨fun s t h => ?_, fun _ _ => step_reports_kept, fun s earlier => step_withEarlierReports earlier s,
    fun s t h hr hop => step_reports_unknown hr (decodeAt_eq_none_of_not_mem (by decide) hop) h, fun _ => rfl⟩
  by_cases hunknown : s.Ready ∧ decodeAt s = none
  · obtain ⟨hr, hi⟩ := hunknown
    exact ⟨_, step_reports_unknown hr hi h, le_rfl⟩
  · exact ⟨[], by rw [step_reports_kept h hunknown, List.append_nil], Nat.zero_le 1⟩

/-- Settles O47: a load's length is its mode's, and the call overwrites `pc`. -/
theorem pcAdvancesByTheLength : Obligations.PcAdvancesByTheLength := by
  refine ⟨fun i s t r m hop h => ?_, fun target s t h => ?_, fun s t hr hop h => ?_⟩
  · obtain ⟨r', v, n, -, he, -⟩ | ⟨target, rfl, -⟩ := exec_cases i s
    · rw [he] at h
      cases h
      rw [loaded_pc, length_of_load hop, add_ofNat_eq]
    · cases hop
  · rw [exec_jsr] at h
    cases h
    exact callTo_pc ..
  · rw [step_ready_none hr (decodeAt_eq_none_of_not_mem (by decide) hop)] at h
    cases h
    exact add_ofNat_eq s.pc 1

/-- Settles O1: reset writes every field but the log. -/
theorem resetGivesTheSpecsValues : Obligations.ResetGivesTheSpecsValues := by
  refine ⟨fun t s hidle => ⟨hostReset s, by simp only [hostCall, hostCallOn, hidle], ?_⟩, fun _ => rfl⟩
  exact ⟨rfl, rfl, rfl, rfl, rfl, rfl, rfl, rfl, rfl, rfl, rfl, rfl, Memory.read_nil, rfl, rfl⟩

/-- Settles O3: by the host operation's first two matches, on the session and on the run state. -/
theorem hostBoundaryRefusesAsTheSpecSays : Obligations.HostBoundaryRefusesAsTheSpecSays := by
  refine ⟨fun _ _ => rfl, fun _ => rfl, fun _ _ => rfl, fun _ _ => rfl, fun _ => rfl, fun t s remaining call h => ?_⟩
  simp only [hostCall, hostCallOn, h]

/-- Settles O6: the reset image is empty, `SP` is 0, and an idle machine has no counter. -/
theorem resetMemoryIsCanonical : Obligations.ResetMemoryIsCanonical :=
  ⟨Memory.nil_wf, rfl, fun _ h => nomatch h⟩

end Sys2Proof.Machine
end

section
/-! PROOFS. The obligations on memory (spec/20_memory.md): what a list of writes leaves at each address, and a word
written, then read back as two bytes, as a fetched word and through a zero-page pointer. -/

namespace Sys2Proof.Machine

/-- The last byte a list of writes, made in order, puts at an address (R62). -/
theorem Memory.read_foldl_write (m : Memory) (writes : List (Word × Byte)) (addr : Word) :
    Memory.read (writes.foldl (fun image w => Memory.write image w.1 w.2) m) addr =
      ((writes.reverse.find? fun w => w.1 == addr).map Prod.snd).getD (m.read addr) := by
  induction writes using List.reverseRecOn with
  | nil => rfl
  | append_singleton earlier last ih =>
    rw [List.foldl_concat, List.reverse_concat, Memory.read_write]
    split
    · next hit => simp [hit]
    · next miss => simp [Ne.symm miss, ih]

/-- Settles O5, by the last write of the list; the reset image is empty. -/
theorem memReadReturnsTheLastWrite : Obligations.MemReadReturnsTheLastWrite :=
  ⟨Memory.read_foldl_write, Memory.read_nil⟩

/-- `FetchWord` at the address of a word write reads the word back (R66, R121). -/
theorem fetchWord_writeWord (v addr : Word) (s : State) : (fetchWord { writeWord v addr s with pc := addr }).1 = v := by
  rw [writeWord_eq, fetchWord]
  simp only [Memory.read_writeWord_lo, Memory.read_writeWord_hi, joinBytes_hi_lo]

/-- Below 0xFF the byte above a zero-page pointer is not wrapped to 0x00 (R123). -/
theorem zext16_add_one_of_ne {p : Byte} (hp : p ≠ 0xFF) : zext16 (p + 1) = zext16 p + 1 := by
  have hlt := p.isLt
  have hne : p.toNat ≠ 255 := fun h => hp (BitVec.eq_of_toNat_eq h)
  rw [zext16_add_one, add_one_eq, toNat_zext16]
  apply BitVec.eq_of_toNat_eq
  rw [toNat_zeroPageAddr, toNat_addrOf]
  omega

/-- `ReadZpWord` through a pointer below 0xFF reads back the word written at it (R66, R123). -/
theorem readZpWord_writeWord (v : Word) {p : Byte} (hp : p ≠ 0xFF) (s : State) :
    (readZpWord p (writeWord v (zext16 p) s)).1 = v := by
  simp only [readZpWord, readByte_eq, State.debit_mem, writeWord_eq, zext16_add_one_of_ne hp, Memory.read_writeWord_lo,
    Memory.read_writeWord_hi, joinBytes_hi_lo]

/-- Settles O8: the image after the write, read byte by byte and as a word. -/
theorem wordWriteIsLittleEndianAndReadsBack : Obligations.WordWriteIsLittleEndianAndReadsBack := by
  refine fun v addr s => ⟨⟨_, writeWord_eq v addr s⟩, ?_, ?_, fun b => ?_, fetchWord_writeWord v addr s, ?_⟩
  · rw [writeWord_eq, Memory.read_writeWord_lo, loByte_eq]
  · rw [writeWord_eq, Memory.read_writeWord_hi, hiByte_eq]
  · exact Memory.read_writeWord_ne s.mem v
  · rintro p hp rfl
    rw [BitVec.ofNat_toNat]
    exact readZpWord_writeWord v hp s

end Sys2Proof.Machine
end

section
/-! PROOFS. The obligations on the encoding (spec/30_encoding.md): the two round trips, the opcode byte and the table. -/

namespace Sys2Proof

/-! ## The decoder and the encoder -/

/-- An opcode of the table with its operand bytes after it decodes (R107). -/
theorem decode_total {op : Byte} {row : Row} (h : lookup dispatchTable op = some row) {tail : List Byte}
    (hlen : row.op.format.length ≤ tail.length + 1) :
    ∃ i, decode (op :: tail) = .instr i (tail.drop (row.op.format.length - 1)) := by
  obtain ⟨i, hi, -⟩ := assemble_row (lookup_eq_some h).1 (tail.getD 0 0) (tail.getD 1 0)
  exact ⟨i, decode_cons_some h hlen hi⟩

/-- The bytes after an opcode that assemble to an instruction are its operand bytes (R93-R95). -/
theorem operandBytes_of_assemble {row : Row} (h : row ∈ dispatchTable) {tail : List Byte} {i : Instr}
    (hlen : row.op.format.length ≤ tail.length + 1)
    (ha : assemble row.op (tail.getD 0 0) (tail.getD 1 0) = some i) :
    i.row = row ∧ i.operandBytes = tail.take (row.op.format.length - 1) := by
  obtain ⟨j, hj, hrow, hbytes⟩ := assemble_row h (tail.getD 0 0) (tail.getD 1 0)
  cases hj.symm.trans ha
  refine ⟨hrow, hbytes.trans ?_⟩
  cases hf : row.op.format with
  | f2 =>
    match tail, hf ▸ hlen with
    | b1 :: _, _ => rfl
  | f3 =>
    match tail, hf ▸ hlen with
    | b1 :: b2 :: _, _ => rfl

/-- Settles O15: the row's opcode is the first byte, and the operand bytes are the next ones. -/
theorem encodeOfDecodeIsTheBytes : Obligations.EncodeOfDecodeIsTheBytes := by
  intro bytes i rest h
  cases bytes with
  | nil => cases h
  | cons op tail =>
    obtain ⟨row, hl, hlen, ha, rfl⟩ := decode_eq_instr h
    obtain ⟨hmem, hop⟩ := lookup_eq_some hl
    obtain ⟨hrow, hbytes⟩ := operandBytes_of_assemble hmem hlen ha
    rw [encode, hrow, hop, hbytes, List.cons_append, List.take_append_drop]

/-- The opcode tells the row, and the row assembles the operand bytes to one instruction only. -/
theorem encode_injective : Function.Injective encode := by
  intro i j h
  obtain ⟨hop, hbytes⟩ := List.cons.inj h
  obtain ⟨-, -, hli, hai⟩ := Laws.EncodedForm.all i
  obtain ⟨-, -, hlj, haj⟩ := Laws.EncodedForm.all j
  rw [hop, hlj] at hli
  have hrow : i.row = j.row := (Option.some.inj hli).symm
  rw [hrow, hbytes, haj] at hai
  exact (Option.some.inj hai).symm

/-- Settles O14: the bytes decode to some instruction, whose encoding they are (O15); no other instruction has it. -/
theorem decodeOfEncodeIsTheInstruction : Obligations.DecodeOfEncodeIsTheInstruction := by
  intro i rest _
  obtain ⟨-, hlen, hl, -⟩ := Laws.EncodedForm.all i
  have hbytes : i.operandBytes.length + 1 = i.row.op.format.length := hlen
  obtain ⟨j, hj⟩ := decode_total hl (tail := i.operandBytes ++ rest) (by rw [List.length_append]; omega)
  rw [List.drop_left' (by omega)] at hj
  obtain rfl : i = j := encode_injective (List.append_cancel_right (encodeOfDecodeIsTheBytes _ j rest hj))
  exact hj

/-- The encoding alone decodes with nothing left over. -/
theorem decode_encode (i : Instr) : decode (encode i) = .instr i [] := by
  simpa using decodeOfEncodeIsTheInstruction i [] rfl

/-- An instruction is at most three bytes long (R91). -/
theorem encode_length_le_three (i : Instr) : (encode i).length ≤ 3 := by
  obtain ⟨-, hlen, -, -⟩ := Laws.EncodedForm.all i
  exact hlen ▸ format_length_le_three _

/-! ## The opcode byte -/

/-- The opcodes of the `F3` rows (R91, R100). -/
def f3Opcodes : List Byte := [0xAD, 0xBD, 0xB9, 0xAE, 0xBE, 0xAC, 0xBC, 0x20]

/-- The opcodes of the `F2` rows (R91, R100). -/
def f2Opcodes : List Byte := [0xA9, 0xA5, 0xB5, 0xA1, 0xB1, 0xA2, 0xA6, 0xB6, 0xA0, 0xA4, 0xB4]

/-- Together they are the table's opcodes, in another order. -/
theorem lookup_eq_none_iff {op : Byte} : lookup dispatchTable op = none ↔ op ∉ f3Opcodes ++ f2Opcodes := by
  have hperm : (dispatchTable.map Row.opcode).Perm (f3Opcodes ++ f2Opcodes) := by decide
  rw [lookup_eq_none, hperm.mem_iff]

theorem opcodeLength_some {t : List Row} {op : Byte} {row : Row} (h : lookup t op = some row) :
    opcodeLength t op = row.op.format.length := by rw [opcodeLength, h]

theorem opcodeLength_none {t : List Row} {op : Byte} (h : lookup t op = none) : opcodeLength t op = 1 := by
  rw [opcodeLength, h]

/-- The length an opcode byte tells (R92): its row's, where it has one. -/
theorem opcodeLength_eq (op : Byte) :
    opcodeLength dispatchTable op = if op ∈ f3Opcodes then 3 else if op ∈ f2Opcodes then 2 else 1 := by
  cases hl : lookup dispatchTable op with
  | none =>
    obtain ⟨hf3, hf2⟩ := not_or.mp (mt List.mem_append.mpr (lookup_eq_none_iff.mp hl))
    rw [opcodeLength_none hl, if_neg hf3, if_neg hf2]
  | some row =>
    have hrows : ∀ row ∈ dispatchTable, row.op.format.length =
        if row.opcode ∈ f3Opcodes then 3 else if row.opcode ∈ f2Opcodes then 2 else 1 := by decide
    obtain ⟨hmem, rfl⟩ := lookup_eq_some hl
    rw [opcodeLength_some hl, hrows row hmem]

/-- A byte list is an unknown opcode exactly when its first byte has no row, however short it is (R105). -/
theorem decode_eq_unknownOpcode {op : Byte} {rest : List Byte} :
    decode (op :: rest) = .rejected (.unknownOpcode op) ↔ lookup dispatchTable op = none := by
  refine ⟨fun h => ?_, fun h => decode_cons_none h rest⟩
  cases hl : lookup dispatchTable op with
  | none => rfl
  | some row =>
    by_cases hlen : rest.length + 1 < row.op.format.length
    · simp only [decode, hl, hlen, if_true, Decoded.rejected.injEq, reduceCtorEq] at h
    · obtain ⟨i, hi⟩ := decode_total hl (Nat.not_lt.mp hlen)
      rw [hi] at h
      cases h

/-- Settles O13: by the row of the opcode, or there being none. -/
theorem opcodeTellsLengthAndDecodingIsTotal : Obligations.OpcodeTellsLengthAndDecodingIsTotal := by
  refine ⟨opcodeLength_eq, fun op rest => decode_eq_unknownOpcode.trans lookup_eq_none_iff, fun op rest hop hlen => ?_⟩
  cases hl : lookup dispatchTable op with
  | none => exact absurd hop (lookup_eq_none_iff.mp hl)
  | some row =>
    rw [opcodeLength_some hl] at hlen ⊢
    exact decode_total hl hlen

/-! ## The table (R100) and the spec's assembler lines (R108) -/

/-- Settles O11: the table has 19 rows, compared one by one. -/
theorem dispatchTableIsTheSpecs : Obligations.DispatchTableIsTheSpecs := ⟨rfl, by decide⟩

/-- Settles O12: each sequence is an encoding, and O14 decodes it; 0x00 has no row. -/
theorem wordsWrittenFromTheSpecDecode : Obligations.WordsWrittenFromTheSpecDecode :=
  ⟨decode_encode (.ldaIm 0x42), decode_encode (.ldaZp 0x40), decode_encode (.ldaZpx 0x80),
    decode_encode (.ldxZpy 0x10), decode_encode (.ldaAbs 0x1234), decode_encode (.ldaAbsx 0x4401),
    decode_encode (.ldaAbsy 0x4401), decode_encode (.ldaIndx 0x20), decode_encode (.ldaIndy 0x20),
    decode_encode (.jsr 0x4000), decode_cons_none rfl []⟩

end Sys2Proof
end

section
/-! PROOFS. The obligations on a step at an instruction's encoding, and at an unknown opcode (spec/30_encoding.md R91,
R103, R105): what it runs and what it costs. -/

namespace Sys2Proof.Machine

/-- Settles O39: a byte outside the table's opcodes has no row, so the step is the report; the 256 bytes are counted. -/
theorem unknownOpcodeIsReportedAndSkipped : Obligations.UnknownOpcodeIsReportedAndSkipped := by
  refine ⟨fun s hr hop => ?_, by decide +kernel, rfl⟩
  rw [← add_ofNat_eq]
  exact step_ready_none hr (decodeAt_eq_none_of_not_mem (by decide) hop)

/-- What an instruction debits (R103). -/
theorem exec_run (i : Instr) (s : State) :
    ∃ t, exec i s = .next t ∧ t.run = s.run.debit (i.row.baseCycles + if crosses i s then 1 else 0) := by
  obtain ⟨r, v, n, -, he, hcost⟩ | ⟨target, rfl, he⟩ := exec_cases i s
  · exact ⟨_, he, by rw [loaded_run, hcost]⟩
  · exact ⟨_, he, by rw [callTo_run, State.fetched_run, RunState.debit_debit]; rfl⟩

/-- Settles O50: a ready machine runs the instruction at `pc`, or reports an unknown opcode. -/
theorem iterationCostIsTheTablesColumns : Obligations.IterationCostIsTheTablesColumns := by
  intro s remaining hr hpos
  have hready : s.Ready := (RunState.live_iff _).mpr ⟨remaining, hr, hpos⟩
  cases hi : decodeAt s with
  | none => exact ⟨_, step_ready_none hready hi, by rw [State.report_run, State.fetched_run, hr]; rfl⟩
  | some i =>
    obtain ⟨t, he, hrun⟩ := exec_run i s
    exact ⟨t, (step_ready_some hready hi).trans he, by rw [hrun, hr]; rfl⟩

/-- The three bytes an instruction is read from (R91), numbered from `pc`. -/
theorem window_getElem? (s : State) {k : Nat} (h : k < 3) :
    [s.mem.read s.pc, s.mem.read (s.pc + 1), s.mem.read (s.pc + 2)][k]? =
      some (s.mem.read (s.pc + BitVec.ofNat 16 k)) := by
  match k, h with
  | 0, _ => simp
  | 1, _ => rfl
  | 2, _ => rfl

/-- The encoding of an instruction at `pc` is read as that instruction, by O14. -/
theorem decodeAt_of_encode {s : State} {i : Instr}
    (h : ∀ k b, (encode i)[k]? = some b → s.mem.read (s.pc + BitVec.ofNat 16 k) = b) : decodeAt s = some i := by
  have hprefix : encode i <+: [s.mem.read s.pc, s.mem.read (s.pc + 1), s.mem.read (s.pc + 2)] := by
    rw [List.prefix_iff_getElem?]
    intro k hk
    rw [window_getElem? s (hk.trans_le (encode_length_le_three i)), h k _ (List.getElem?_eq_getElem hk)]
  obtain ⟨rest, hrest⟩ := hprefix
  rw [decodeAt, decodeWindow, ← hrest, decodeOfEncodeIsTheInstruction i rest rfl]

/-- A call begun or gone on with runs an iteration (spec/60_exceptions.md R312). -/
theorem RunState.live_started (run : RunState) : run.started.live = true := by
  cases run with
  | idle => rfl
  | running remaining => by_cases hpos : 0 < remaining <;> simp [RunState.started, hpos]

/-- A placed word is what the next step reads: the three addresses from `pc` on differ, so each byte is read back. -/
theorem decodeAt_placeInstr (s : State) (nbits w : Nat) : decodeAt (placeInstr s nbits w) = decodeTableWord nbits w := by
  simp [decodeAt, placeInstr, Memory.read_write, decodeTableWord]

/-- Settles O53: the encoding at `pc`, and the word placed there, are what the decoder reads. -/
theorem encodedInstructionAtPcRuns : Obligations.EncodedInstructionAtPcRuns :=
  ⟨fun _ _ hr h => step_ready_some hr (decodeAt_of_encode h),
    fun s nbits w _ h => step_ready_some (RunState.live_started s.run) ((decodeAt_placeInstr s nbits w).trans h)⟩

end Sys2Proof.Machine
end

section
/-! PROOFS. The obligations on the fetch unit, the address arithmetic and the addressing modes
(spec/40_fetch_alu_addressing.md): each primitive and each mode as one equation on the whole state. -/

namespace Sys2Proof.Machine

/-! ## The fetch unit and the ALU -/

/-- Fetching and debiting, with `pc` as a number (R120, R121): it wraps from 0xFFFF to 0x0000 (D6). -/
theorem State.fetched_debit_eq (s : State) (k n : Nat) :
    (s.fetched k).debit n = { s with pc := addrOf (s.pc.toNat + k), run := s.run.debit (k + n) } := by
  simp only [State.debit, State.fetched, add_ofNat_eq, RunState.debit_debit]

theorem State.fetched_eq (s : State) (k : Nat) :
    s.fetched k = { s with pc := addrOf (s.pc.toNat + k), run := s.run.debit k } := by
  rw [State.fetched, add_ofNat_eq]

/-- Settles O9: one equation per primitive. -/
theorem fetchUnitPrimitives : Obligations.FetchUnitPrimitives := by
  refine ⟨fun s => ?fetchByte, fun s => ?fetchWord, readByte_eq, readZpWord_eq⟩
  case fetchByte => rw [fetchByte_eq, State.fetched_eq]
  case fetchWord => rw [fetchWord_eq, add_one_eq, State.fetched_eq]

/-- Settles O10. -/
theorem aluArithmeticWrapsAndFlags : Obligations.AluArithmeticWrapsAndFlags :=
  ⟨toNat_zpIndex, toNat_retAddr, State.setNZ_eq⟩

/-! ## The modes: the operand the fetch unit returns, then the mode's own form -/

theorem resolve_zeroPage (s : State) :
    resolve .zeroPage s = (.addr (zeroPageAddr (fetchByte s).1.toNat), s.fetched 1) := zeroPageForm_eq _ _

theorem resolve_zeroPageX (s : State) :
    resolve .zeroPageX s = (.addr (zeroPageAddr ((fetchByte s).1.toNat + s.x.toNat)), (s.fetched 1).debit 1) :=
  zeroPageIndexedForm_eq _ _ _

theorem resolve_zeroPageY (s : State) :
    resolve .zeroPageY s = (.addr (zeroPageAddr ((fetchByte s).1.toNat + s.y.toNat)), (s.fetched 1).debit 1) :=
  zeroPageIndexedForm_eq _ _ _

theorem resolve_absoluteX (s : State) :
    resolve .absoluteX s = (.addr (addrOf ((fetchWord s).1.toNat + s.x.toNat)),
      (s.fetched 2).debit (if pageCrossed (fetchWord s).1 s.x then 1 else 0)) := indexedForm_eq _ _ _

theorem resolve_absoluteY (s : State) :
    resolve .absoluteY s = (.addr (addrOf ((fetchWord s).1.toNat + s.y.toNat)),
      (s.fetched 2).debit (if pageCrossed (fetchWord s).1 s.y then 1 else 0)) := indexedForm_eq _ _ _

theorem resolve_indirectX (s : State) :
    resolve .indirectX s = (.addr (zeroPageWord s.mem ((fetchByte s).1.toNat + s.x.toNat)), (s.fetched 1).debit 3) :=
  indirectXForm_eq _ _

theorem resolve_indirectY (s : State) :
    resolve .indirectY s = (.addr (addrOf ((zeroPageWord s.mem (fetchByte s).1.toNat).toNat + s.y.toNat)),
      (s.fetched 1).debit (2 + if pageCrossed (zeroPageWord s.mem (fetchByte s).1.toNat) s.y then 1 else 0)) :=
  indirectYForm_eq _ _

/-- Settles O16: the five modes without a page cross; an indexed one debits its addition after the fetch. -/
theorem unindexedAndZeroPageModesResolve : Obligations.UnindexedAndZeroPageModesResolve := by
  refine fun s => ⟨rfl, resolve_zeroPage s, resolve_zeroPageX s, resolve_zeroPageY s, rfl, rfl, ?_, ?_, ?_, rfl⟩
  · rw [resolve_zeroPage, State.fetched_run]
  · rw [resolve_zeroPageX, State.debit_run, State.fetched_run, RunState.debit_debit]
  · rw [resolve_zeroPageY, State.debit_run, State.fetched_run, RunState.debit_debit]

/-- The page-cross cycle on top of a mode's fixed ones (R103). -/
theorem add_crossCycle (n : Nat) (cross : Bool) :
    (n + if cross then 1 else 0) = if cross then n + 1 else n := by cases cross <;> rfl

/-- Settles O17: the page-cross cycle is the only part of a mode's cost that depends on the operand. -/
theorem indexedAndIndirectModesResolve : Obligations.IndexedAndIndirectModesResolve := by
  refine fun s => ⟨absIndex_eq, ?absoluteX, ?absoluteY, ?indirectX, ?indirectY⟩
  case absoluteX => rw [resolve_absoluteX, State.fetched_debit_eq, add_crossCycle, fetchWord_eq, add_one_eq]
  case absoluteY => rw [resolve_absoluteY, State.fetched_debit_eq, add_crossCycle, fetchWord_eq, add_one_eq]
  case indirectX => rw [resolve_indirectX, State.fetched_debit_eq, fetchByte_eq]
  case indirectY => rw [resolve_indirectY, State.fetched_debit_eq, ← Nat.add_assoc, add_crossCycle, fetchByte_eq]

end Sys2Proof.Machine
end

section
/-! PROOFS. The obligations on the execute loop and the host's calls (spec/41_dispatch_execute.md): a step is an iteration
of the loop, a call is the steps up to the loop's exit, and what the host writes while the machine is idle. -/

namespace Sys2Proof.Machine

/-! ## A step is one iteration of the loop -/

/-- The meaning of a whole decoded instruction is the handler of its operation, which fetches the same operand bytes one by
one (spec/41_dispatch_execute.md R161): at byte 1 and the byte after it. A register and a mode without a row (R100)
assemble to nothing. -/
theorem exec_assembled {op : Operation} {i : Instr} {s : State}
    (h : assemble op (s.mem.read (s.pc + 1)) (s.mem.read (s.pc + 1 + 1)) = some i) :
    exec i s = .next (handler op (s.fetched 1)) := by
  cases op with
  | jsr => cases h; rfl
  | load r m =>
    cases m with
    | immediate => cases r <;> cases h <;> rfl
    | zeroPage => cases r <;> cases h <;> rfl
    | zeroPageX => cases r <;> cases h <;> rfl
    | zeroPageY => cases r <;> cases h; rfl
    | absolute => cases r <;> cases h <;> rfl
    | absoluteX => cases r <;> cases h <;> rfl
    | absoluteY => cases r <;> cases h <;> rfl
    | indirectX => cases r <;> cases h; rfl
    | indirectY => cases r <;> cases h; rfl

theorem iterate_some {t : List Row} {s : State} {row : Row} (h : lookup t (s.mem.read s.pc) = some row) :
    iterate t s = handler row.op (s.fetched 1) := by simp only [iterate, fetchByte_eq, h]

theorem iterate_none {t : List Row} {s : State} (h : lookup t (s.mem.read s.pc) = none) :
    iterate t s = (s.fetched 1).report s.pc (s.mem.read s.pc) := by simp only [iterate, fetchByte_eq, h]

/-- Settles O54: the opcode's row assembles the operand bytes to an instruction, and its handler fetches them again. -/
theorem stepIsTheSpecsIteration : Obligations.StepIsTheSpecsIteration := by
  intro s hr
  cases hl : lookup dispatchTable (s.mem.read s.pc) with
  | none => rw [step_ready_none hr (decodeWindow_none _ _ hl), iterate_none hl]
  | some row =>
    obtain ⟨i, hi, -⟩ := assemble_row (lookup_eq_some hl).1 (s.mem.read (s.pc + 1)) (s.mem.read (s.pc + 1 + 1))
    have hnext : s.pc + 1 + 1 = s.pc + 2 := BitVec.add_assoc ..
    have hdecode : decodeAt s = some i := decodeWindow_some hl (hnext ▸ hi)
    rw [step_ready_some hr hdecode, exec_assembled hi, iterate_some hl]

/-- Settles O52: a ready machine's step decodes those same three bytes. -/
theorem stepRunsTheDecodedInstruction : Obligations.StepRunsTheDecodedInstruction := by
  intro s i rest hr h
  exact step_ready_some hr (by rw [decodeAt, decodeWindow, h])

theorem step_idle {s : State} (h : s.run = .idle) : step s = .next s := by simp only [step, h, idleStep]

/-- A spent budget ends the call (spec/41_dispatch_execute.md R170). -/
theorem step_spent {s : State} {remaining : Int} (hr : s.run = .running remaining) (hle : remaining ≤ 0) :
    step s = .next (endCall s) := by simp only [step, hr, not_lt.mpr hle, if_false]

/-- Settles O56: the two tests of a step that runs nothing. -/
theorem idleHoldsAndTheLoopExits : Obligations.IdleHoldsAndTheLoopExits :=
  ⟨fun _ => step_idle, fun _ _ => step_spent⟩

/-! ## A call is the loop from its entry, then the exit -/

/-- The loop's test fails in a machine that runs exactly when its budget is spent. -/
theorem RunState.not_live_iff {run : RunState} (h : run ≠ .idle) :
    run.live = false ↔ ∃ remaining, run = .running remaining ∧ remaining ≤ 0 := by
  cases run with
  | idle => exact absurd rfl h
  | running remaining => simp

theorem beginCall_run (budget : Nat) (s : State) : (beginCall budget s).run = .running budget := rfl

/-- The loop of a call ends with its budget spent (R175, R177). -/
theorem whileLoop_beginCall_spent (t : List Row) (budget : Nat) (s : State) :
    ∃ remaining, (whileLoop t budget (beginCall budget s)).run = .running remaining ∧ remaining ≤ 0 :=
  (RunState.not_live_iff (whileLoop_running t budget (s := beginCall budget s) nofun)).mp
    (whileLoop_ends t budget (beginCall_run budget s) le_rfl).1

/-- An idle machine accepts a call, which answers what the loop leaves (R170, R175). -/
theorem execute_idle {t : List Row} {budget : Nat} {s : State} {remaining : Int} (hidle : s.run = .idle)
    (hr : (whileLoop t budget (beginCall budget s)).run = .running remaining) :
    execute t budget s = .next (budget - remaining, endCall (whileLoop t budget (beginCall budget s))) := by
  simp only [execute, hidle, consumed, hr]

/-- Settles O60: the counter falls with every iteration, so the budget is fuel enough. -/
theorem everyCallTerminatesWithinItsBudget : Obligations.EveryCallTerminatesWithinItsBudget := by
  refine ⟨fun t s remaining hr => ?_, fun t budget s => whileLoop_ends t budget (beginCall_run budget s) le_rfl,
    fun t budget s hidle => ?_⟩
  · obtain ⟨cost, hpos, hrun⟩ := iterate_run t s
    exact ⟨remaining - cost, by rw [hrun, hr, RunState.debit_running], by omega⟩
  · obtain ⟨remaining, hr, -⟩ := whileLoop_beginCall_spent t budget s
    exact ⟨_, _, execute_idle hidle hr, rfl⟩

theorem endCall_beginCall {s : State} (budget : Nat) (h : s.run = .idle) : endCall (beginCall budget s) = s := by
  rw [endCall, beginCall, ← h]

/-- Settles O57: with budget 0 the loop runs no iteration; with budget 1 it runs one, which debits a cycle at least. -/
theorem executeZeroDoesNothingAndOneRunsOneIteration : Obligations.ExecuteZeroDoesNothingAndOneRunsOneIteration := by
  refine fun t s hidle => ⟨?zero, ?one⟩
  case zero =>
    rw [execute_idle (remaining := 0) hidle rfl, whileLoop, endCall_beginCall 0 hidle]
    rfl
  case one =>
    obtain ⟨cost, hpos, hrun⟩ := iterate_run t (beginCall 1 s)
    refine ⟨cost, hpos, hrun, ?_⟩
    have hloop : whileLoop t 1 (beginCall 1 s) = iterate t (beginCall 1 s) := rfl
    rw [execute_idle (remaining := 1 - cost) hidle (hloop ▸ hrun), hloop, endCall, Nat.cast_one, sub_sub_cancel]

/-! ## A call is the steps from its entry -/

/-- The steps of a machine reach every state its loop reaches. -/
theorem core_run_whileLoop (fuel : Nat) (s : State) :
    ∃ j, Host.Core.run core j s = .next (whileLoop dispatchTable fuel s) := by
  induction fuel generalizing s with
  | zero => exact ⟨0, rfl⟩
  | succ fuel ih =>
    cases hl : s.run.live with
    | false => exact ⟨0, by rw [whileLoop_not_live _ _ hl]; rfl⟩
    | true =>
      obtain ⟨j, hj⟩ := ih (iterate dispatchTable s)
      refine ⟨j + 1, ?_⟩
      rw [core_run_succ j (stepIsTheSpecsIteration s hl), hj, whileLoop_succ, if_pos hl]

/-- With fuel for every cycle left, one step more than the fuel ends the call where the loop ends. -/
theorem core_run_endCall (fuel : Nat) {s : State} {remaining : Int} (hr : s.run = .running remaining)
    (hf : remaining ≤ fuel) :
    Host.Core.run core (fuel + 1) s = .next (endCall (whileLoop dispatchTable fuel s)) := by
  induction fuel generalizing s remaining with
  | zero => exact core_run_succ 0 (step_spent hr hf)
  | succ fuel ih =>
    by_cases hpos : 0 < remaining
    · have hl : s.run.live = true := (RunState.live_iff _).mpr ⟨remaining, hr, hpos⟩
      obtain ⟨cost, hcost, hrun⟩ := iterate_run dispatchTable s
      rw [hr, RunState.debit_running] at hrun
      rw [core_run_succ _ (stepIsTheSpecsIteration s hl), ih hrun (by omega), whileLoop_succ, if_pos hl]
    · have hl : s.run.live = false := by simp [hr, hpos]
      rw [core_run_succ _ (step_spent hr (not_lt.mp hpos)), core_run_idle _ rfl, whileLoop_not_live _ _ hl]

/-- Settles O58: the budget is fuel for every cycle of the call. -/
theorem executeIsRepeatedStepping : Obligations.ExecuteIsRepeatedStepping := by
  intro budget s hidle
  obtain ⟨remaining, hr, -⟩ := whileLoop_beginCall_spent dispatchTable budget s
  exact ⟨_, _, execute_idle hidle hr, rfl, core_run_endCall budget (beginCall_run budget s) le_rfl⟩

/-- A loop that runs at all ends with an iteration from one of its own states. -/
theorem whileLoop_last (t : List Row) (fuel : Nat) {s : State} (h : s.run.live = true) :
    ∃ j, (whileLoop t j s).run.live = true ∧ whileLoop t (fuel + 1) s = iterate t (whileLoop t j s) := by
  induction fuel generalizing s with
  | zero => exact ⟨0, h, by rw [whileLoop_succ, if_pos h]; rfl⟩
  | succ fuel ih =>
    rw [whileLoop_succ, if_pos h]
    cases hl : (iterate t s).run.live with
    | false => exact ⟨0, h, whileLoop_not_live t _ hl⟩
    | true =>
      obtain ⟨j, hlive, hlast⟩ := ih hl
      exact ⟨j + 1, by rwa [whileLoop_succ, if_pos h], by rw [hlast, whileLoop_succ, if_pos h]⟩

/-- Settles O59: the call's last iteration begins above zero and ends at zero or below, and steps reach both states. -/
theorem executeReturnsWithinTheLastCost : Obligations.ExecuteReturnsWithinTheLastCost := by
  refine ⟨fun budget s hidle hpos => ?_, fun budget s hidle => ?_⟩
  · obtain ⟨fuel, rfl⟩ := Nat.exists_eq_succ_of_ne_zero hpos.ne'
    obtain ⟨j, hlive, hlast⟩ := whileLoop_last dispatchTable fuel (s := beginCall (fuel + 1) s)
      ((RunState.live_iff _).mpr ⟨_, rfl, Nat.cast_pos.mpr hpos⟩)
    obtain ⟨steps, hsteps⟩ := core_run_whileLoop j (beginCall (fuel + 1) s)
    obtain ⟨remaining, hr, hrpos⟩ := (RunState.live_iff _).mp hlive
    obtain ⟨cost, -, hrun⟩ := iterate_run dispatchTable (whileLoop dispatchTable j (beginCall (fuel + 1) s))
    rw [hr, RunState.debit_running, ← hlast] at hrun
    obtain ⟨after, hafter, hle⟩ := whileLoop_beginCall_spent dispatchTable (fuel + 1) s
    obtain rfl : remaining - cost = after := RunState.running.inj (hrun.symm.trans hafter)
    exact ⟨_, remaining, cost, steps, _, _, hsteps, hr, hrpos, hlast ▸ stepIsTheSpecsIteration _ hlive, hrun, hle,
      execute_idle hidle hrun, rfl, by omega, by omega⟩
  · obtain ⟨remaining, hr, hle⟩ := whileLoop_beginCall_spent dispatchTable budget s
    obtain ⟨j, hj⟩ := core_run_whileLoop budget (beginCall budget s)
    exact ⟨remaining, j, _, hj, hr, hle, execute_idle hidle hr⟩

/-! ## What the host does while the machine is idle -/

theorem hostCall_inspect (t : List Row) {s : State} (h : s.run = .idle) :
    hostCall t (some s) .inspect = .next (some s, .view s) := by simp only [hostCall, hostCallOn, h]

theorem hostCall_preload (t : List Row) {s : State} (h : s.run = .idle) (w : Preload) :
    hostCall t (some s) (.preload w) = .next (some (applyPreload w s), .done) := by
  simp only [hostCall, hostCallOn, h]

theorem hostCall_replaceImage (t : List Row) {s : State} (h : s.run = .idle) (cells : List (Word × Byte)) :
    hostCall t (some s) (.replaceImage cells) = .next (some { s with mem := imageOf cells }, .done) := by
  simp only [hostCall, hostCallOn, h]

/-- A byte of an image passed is the last one listed for its address, 0x00 where none is (spec/20_memory.md R76). -/
theorem read_imageOf (cells : List (Word × Byte)) (addr : Word) :
    (imageOf cells).read addr = ((cells.reverse.find? fun c => c.1 == addr).map Prod.snd).getD 0x00 :=
  Memory.read_foldl_write [] cells addr

/-- The list with one cell for each of the 65,536 addresses. -/
def cellsOf (image : Word → Byte) : List (Word × Byte) :=
  (List.range Config.memSize).map fun n => (BitVec.ofNat 16 n, image (BitVec.ofNat 16 n))

theorem mem_cellsOf {image : Word → Byte} {c : Word × Byte} : c ∈ cellsOf image ↔ c.2 = image c.1 := by
  simp only [cellsOf, List.mem_map, List.mem_range]
  refine ⟨?_, fun h => ⟨c.1.toNat, c.1.isLt, ?_⟩⟩
  · rintro ⟨n, -, rfl⟩
    rfl
  · rw [BitVec.ofNat_toNat, BitVec.setWidth_eq, ← h]

/-- Any image can be passed (R76): an address is listed, and each of its cells has its byte. -/
theorem read_imageOf_cellsOf (image : Word → Byte) (addr : Word) : (imageOf (cellsOf image)).read addr = image addr := by
  rw [read_imageOf]
  cases hfound : (cellsOf image).reverse.find? fun c => c.1 == addr with
  | none =>
    have hmem : (addr, image addr) ∈ (cellsOf image).reverse := List.mem_reverse.mpr (mem_cellsOf.mpr rfl)
    exact absurd (beq_self_eq_true addr) (List.find?_eq_none.mp hfound _ hmem)
  | some c =>
    have haddr : c.1 = addr := by simpa using List.find?_some hfound
    exact haddr ▸ mem_cellsOf.mp (List.mem_reverse.mp (List.mem_of_find?_eq_some hfound))

/-- Settles O4: a preload is its one field's update, or one write; an image reads as its last writes. -/
theorem hostPreloadsAndInspects : Obligations.HostPreloadsAndInspects := by
  intro t s hidle
  have preload := hostCall_preload t hidle
  refine ⟨hostCall_inspect t hidle, fun v => preload (.pc v), fun v => preload (.sp v), fun v => preload (.reg .a v),
    fun v => preload (.reg .x v), fun v => preload (.reg .y v), fun v => preload (.flagC v), fun v => preload (.flagZ v),
    fun v => preload (.flagI v), fun v => preload (.flagD v), fun v => preload (.flagB v), fun v => preload (.flagV v),
    fun v => preload (.flagN v), fun addr v => ?byte, fun cells => ?cells, fun image => ?image⟩
  case byte =>
    exact ⟨_, preload (.mem addr v), Memory.read_write_self _ _ _, fun b hb => Memory.read_write_ne _ _ hb⟩
  case cells => exact ⟨_, hostCall_replaceImage t hidle cells, read_imageOf cells⟩
  case image => exact ⟨cellsOf image, _, hostCall_replaceImage t hidle _, read_imageOf_cellsOf image⟩

end Sys2Proof.Machine
end

section
/-! PROOFS. The obligations on the loads (spec/42_load_register.md): the family's handler for every register and mode, then
each of the 18 instructions, as its opcode at `pc` and its row of `loadEffect`. -/

namespace Sys2Proof.Machine

/-! ## The family: a resolved mode, then the data read (R200) -/

/-- The byte a load takes from what its mode resolved. -/
def Resolved.byte (m : Memory) : Resolved → Byte
  | .value v => v
  | .addr ea => m.read ea

/-- The data reads of a load from what its mode resolved. -/
def Resolved.dataReads : Resolved → Nat
  | .value _ => 0
  | .addr _ => 1

/-- Whether a mode crosses a page in the state its operand is fetched from (R146, R147, R149). -/
def modeCrosses (m : Mode) (s : State) : Bool :=
  match m with
  | .absoluteX => pageCrossed (fetchWord s).1 s.x
  | .absoluteY => pageCrossed (fetchWord s).1 s.y
  | .indirectY => pageCrossed (zeroPageWord s.mem (fetchByte s).1.toNat) s.y
  | .immediate | .zeroPage | .zeroPageX | .zeroPageY | .absolute | .indirectX => false

/-- The page cross in the words of O18. -/
theorem modeCrosses_iff (m : Mode) (s : State) :
    modeCrosses m s = true ↔
      (m = .absoluteX ∧ pageCrossed (fetchWord s).1 s.x = true) ∨
      (m = .absoluteY ∧ pageCrossed (fetchWord s).1 s.y = true) ∨
      (m = .indirectY ∧ pageCrossed (zeroPageWord s.mem (fetchByte s).1.toNat) s.y = true) := by
  cases m <;> simp [modeCrosses]

/-- The state a resolver answers: its bytes fetched, and all in all the mode's debits made (R150). -/
theorem resolve_snd (m : Mode) (s : State) :
    ∃ n, (resolve m s).2 = (s.fetched (m.format.length - 1)).debit n ∧
      m.format.length - 1 + n = m.debits + if modeCrosses m s then 1 else 0 := by
  cases m with
  | immediate => exact ⟨0, (State.debit_zero _).symm, rfl⟩
  | zeroPage => exact ⟨0, (State.debit_zero _).symm, rfl⟩
  | zeroPageX => exact ⟨1, rfl, rfl⟩
  | zeroPageY => exact ⟨1, rfl, rfl⟩
  | absolute => exact ⟨0, (State.debit_zero _).symm, rfl⟩
  | absoluteX => exact ⟨_, congrArg Prod.snd (resolve_absoluteX s), rfl⟩
  | absoluteY => exact ⟨_, congrArg Prod.snd (resolve_absoluteY s), rfl⟩
  | indirectX => exact ⟨_, congrArg Prod.snd (resolve_indirectX s), rfl⟩
  | indirectY => exact ⟨_, congrArg Prod.snd (resolve_indirectY s), (Nat.add_assoc 1 2 _).symm⟩

/-- Immediate alone resolves to a value, which needs no data read. -/
theorem resolve_dataReads (m : Mode) (s : State) : (resolve m s).1.dataReads = m.dataReads := by
  cases m <;> rfl

theorem loadInto_debit_loaded (r : Reg) (res : Resolved) (s : State) (k n : Nat) :
    loadInto r (res, (s.fetched k).debit n) = loaded s k (n + res.dataReads) r (res.byte s.mem) := by
  cases res with
  | value v => rfl
  | addr ea => exact loadInto_addr_debit_loaded s k n r ea

/-- The handler of a load answers a loaded state, with the resolved byte and the cost of the mode (R150, R200). -/
theorem loadHandler_loaded (r : Reg) (m : Mode) (s : State) :
    ∃ n, loadHandler r m s = loaded s (m.format.length - 1) n r ((resolve m s).1.byte s.mem) ∧
      m.format.length - 1 + n = m.debits + m.dataReads + if modeCrosses m s then 1 else 0 := by
  obtain ⟨n, hstate, hcost⟩ := resolve_snd m s
  refine ⟨n + m.dataReads, ?_, by omega⟩
  rw [loadHandler, ← Prod.mk.eta (p := resolve m s), hstate, loadInto_debit_loaded, resolve_dataReads]

/-- Settles O18: the frame of a loaded state; its cost is the mode's. -/
theorem loadFamilyEffect : Obligations.LoadFamilyEffect := by
  intro r m s result word pointed cross
  obtain ⟨n, hload, hcost⟩ := loadHandler_loaded r m s
  have hresult : (resolve m s).1.byte s.mem = result := rfl
  have hcross : modeCrosses m s = true ↔ cross := by
    have h := modeCrosses_iff m s
    rwa [fetchWord_eq, add_one_eq] at h
  rw [hload, hresult]
  refine ⟨loaded_getReg .., fun q hq => loaded_getReg_ne _ _ _ _ hq, loaded_flagZ .., loaded_flagN .., loaded_flagC ..,
    loaded_flagI .., loaded_flagD .., loaded_flagB .., loaded_flagV .., loaded_sp .., loaded_mem .., loaded_reports ..,
    ?pc, ?run⟩
  case pc => rw [loaded_pc, add_ofNat_eq]
  case run => rw [loaded_run, hcost, if_congr hcross rfl rfl]

/-! ## One load: its opcode at `pc`, and its whole next state -/

/-- A ready machine with an instruction's opcode at `pc` runs what the bytes after it assemble to (R90, R171). -/
theorem step_of_opcode {s : State} {i : Instr} (hr : s.Ready) (hop : s.mem.read s.pc = i.row.opcode)
    (hi : assemble i.row.op (s.mem.read (s.pc + 1)) (s.mem.read (s.pc + 2)) = some i) : step s = exec i s := by
  obtain ⟨-, -, hl, -⟩ := Laws.EncodedForm.all i
  exact step_ready_some hr (decodeWindow_some (hop ▸ hl) hi)

/-- The fields a load sets besides its register, with `Z`, `N` and `pc` as numbers (R131, D6). -/
theorem loaded_eq (s : State) (k n : Nat) (r : Reg) (v : Byte) :
    loaded s k n r v =
      State.setReg { s with flagZ := decide (v.toNat = 0), flagN := decide (128 ≤ v.toNat),
                            pc := addrOf (s.pc.toNat + k), run := s.run.debit (k + n) } r v := by
  rw [loaded, State.setNZ_eq, State.fetched_debit_eq]
  cases r <;> rfl

/-- A load's whole answer: the byte of its row of `loadEffect`, at the cost of its row of the dispatch table (R100,
R201-R218). -/
theorem exec_load_eq (i : Instr) {r : Reg} {s : State} {v : Byte} (hd : destination i = some r)
    (hv : (loadEffect i s.mem s.x s.y).2 = v) :
    exec i s = .next (State.setReg
      { s with flagZ := decide (v.toNat = 0), flagN := decide (128 ≤ v.toNat), pc := addrOf (s.pc.toNat + i.length),
               run := s.run.debit (if crosses i s then i.row.baseCycles + 1 else i.row.baseCycles) } r v) := by
  obtain ⟨t, he, hrun⟩ := exec_run i s
  rw [exec_load hd, hv] at he ⊢
  cases he
  rw [loaded_run, add_crossCycle] at hrun
  rw [loaded_eq, hrun]

/-! ## LDA (R201-R208) -/

/-- Settles O19: the operand byte is loaded with no data read. -/
theorem ldaImLoads : Obligations.LdaImLoads :=
  ⟨fun _ hr hop => step_of_opcode hr hop rfl, fun imm _ => exec_load_eq (.ldaIm imm) rfl rfl⟩

/-- Settles O20: the operand byte is the zero-page address. -/
theorem ldaZpLoads : Obligations.LdaZpLoads :=
  ⟨fun _ hr hop => step_of_opcode hr hop rfl, fun zp _ => exec_load_eq (.ldaZp zp) rfl rfl⟩

/-- Settles O21: the indexed address stays in the zero page. -/
theorem ldaZpxLoads : Obligations.LdaZpxLoads :=
  ⟨fun _ hr hop => step_of_opcode hr hop rfl, fun zp _ => exec_load_eq (.ldaZpx zp) rfl rfl⟩

/-- Settles O22: the operand bytes stand low byte first. -/
theorem ldaAbsLoads : Obligations.LdaAbsLoads :=
  ⟨fun _ hr hop => step_of_opcode hr hop (congrArg (some ∘ Instr.ldaAbs) (joinBytes_eq ..)),
    fun abs _ => exec_load_eq (.ldaAbs abs) rfl rfl⟩

/-- Settles O23: the page cross is that of the address and X. -/
theorem ldaAbsxLoads : Obligations.LdaAbsxLoads :=
  ⟨fun _ hr hop => step_of_opcode hr hop (congrArg (some ∘ Instr.ldaAbsx) (joinBytes_eq ..)),
    fun abs _ => exec_load_eq (.ldaAbsx abs) rfl rfl⟩

/-- Settles O24: the page cross is that of the address and Y. -/
theorem ldaAbsyLoads : Obligations.LdaAbsyLoads :=
  ⟨fun _ hr hop => step_of_opcode hr hop (congrArg (some ∘ Instr.ldaAbsy) (joinBytes_eq ..)),
    fun abs _ => exec_load_eq (.ldaAbsy abs) rfl rfl⟩

/-- Settles O25: the pointer is indexed, so no page is crossed. -/
theorem ldaIndxLoads : Obligations.LdaIndxLoads :=
  ⟨fun _ hr hop => step_of_opcode hr hop rfl, fun zp _ => exec_load_eq (.ldaIndx zp) rfl rfl⟩

/-- Settles O26: the word at the pointer is indexed, so the page cross is its own. -/
theorem ldaIndyLoads : Obligations.LdaIndyLoads :=
  ⟨fun _ hr hop => step_of_opcode hr hop rfl, fun zp _ => exec_load_eq (.ldaIndy zp) rfl rfl⟩

/-! ## LDX (R209-R213) -/

/-- Settles O27: as O19, into X. -/
theorem ldxImLoads : Obligations.LdxImLoads :=
  ⟨fun _ hr hop => step_of_opcode hr hop rfl, fun imm _ => exec_load_eq (.ldxIm imm) rfl rfl⟩

/-- Settles O28: as O20, into X. -/
theorem ldxZpLoads : Obligations.LdxZpLoads :=
  ⟨fun _ hr hop => step_of_opcode hr hop rfl, fun zp _ => exec_load_eq (.ldxZp zp) rfl rfl⟩

/-- Settles O29: as O21, into X and indexed by Y. -/
theorem ldxZpyLoads : Obligations.LdxZpyLoads :=
  ⟨fun _ hr hop => step_of_opcode hr hop rfl, fun zp _ => exec_load_eq (.ldxZpy zp) rfl rfl⟩

/-- Settles O30: as O22, into X. -/
theorem ldxAbsLoads : Obligations.LdxAbsLoads :=
  ⟨fun _ hr hop => step_of_opcode hr hop (congrArg (some ∘ Instr.ldxAbs) (joinBytes_eq ..)),
    fun abs _ => exec_load_eq (.ldxAbs abs) rfl rfl⟩

/-- Settles O31: as O24, into X. -/
theorem ldxAbsyLoads : Obligations.LdxAbsyLoads :=
  ⟨fun _ hr hop => step_of_opcode hr hop (congrArg (some ∘ Instr.ldxAbsy) (joinBytes_eq ..)),
    fun abs _ => exec_load_eq (.ldxAbsy abs) rfl rfl⟩

/-! ## LDY (R214-R218) -/

/-- Settles O32: as O19, into Y. -/
theorem ldyImLoads : Obligations.LdyImLoads :=
  ⟨fun _ hr hop => step_of_opcode hr hop rfl, fun imm _ => exec_load_eq (.ldyIm imm) rfl rfl⟩

/-- Settles O33: as O20, into Y. -/
theorem ldyZpLoads : Obligations.LdyZpLoads :=
  ⟨fun _ hr hop => step_of_opcode hr hop rfl, fun zp _ => exec_load_eq (.ldyZp zp) rfl rfl⟩

/-- Settles O34: as O21, into Y. -/
theorem ldyZpxLoads : Obligations.LdyZpxLoads :=
  ⟨fun _ hr hop => step_of_opcode hr hop rfl, fun zp _ => exec_load_eq (.ldyZpx zp) rfl rfl⟩

/-- Settles O35: as O22, into Y. -/
theorem ldyAbsLoads : Obligations.LdyAbsLoads :=
  ⟨fun _ hr hop => step_of_opcode hr hop (congrArg (some ∘ Instr.ldyAbs) (joinBytes_eq ..)),
    fun abs _ => exec_load_eq (.ldyAbs abs) rfl rfl⟩

/-- Settles O36: as O23, into Y. -/
theorem ldyAbsxLoads : Obligations.LdyAbsxLoads :=
  ⟨fun _ hr hop => step_of_opcode hr hop (congrArg (some ∘ Instr.ldyAbsx) (joinBytes_eq ..)),
    fun abs _ => exec_load_eq (.ldyAbsx abs) rfl rfl⟩

end Sys2Proof.Machine
end

section
/-! PROOFS. The obligations on the call (spec/43_subroutine_call.md): JSR as one equation on the whole state, and the
return addresses that calls leave in the stack page. -/

namespace Sys2Proof.Machine

/-- JSR's whole answer: the fetches and the call debit 3 cycles each, and the return address is that of its last byte
(R230). -/
theorem exec_jsr_eq (target : Word) (s : State) :
    exec (.jsr target) s = .next { s with
      pc := target, sp := spAdvance s.sp, run := s.run.debit 6,
      mem := s.mem.writeWord (s.pc + 2) (stackAddr s.sp) } := by
  rw [exec_jsr, callTo_eq, State.fetched_pc, retAddr_after_fetch, State.fetched_run, RunState.debit_debit]
  rfl

/-- `SpAdvance` as the statement writes it (R134). -/
theorem spAdvance_eq (sp : Byte) : spAdvance sp = BitVec.ofNat 8 ((sp.toNat + 2) % 256) := by
  rw [← toNat_spAdvance, BitVec.ofNat_toNat, BitVec.setWidth_eq]

/-- Settles O37: the opcode's row assembles to JSR, whose one word write is at the stack address. -/
theorem jsrCalls : Obligations.JsrCalls := by
  refine ⟨fun _ hr hop => step_of_opcode hr hop (congrArg (some ∘ Instr.jsr) (joinBytes_eq ..)), fun target s =>
    ⟨s.mem.writeWord (s.pc + 2) (stackAddr s.sp), ?next, ?lo, ?hi, fun addr hlo hhi => ?frame⟩⟩
  case next => rw [exec_jsr_eq, spAdvance_eq]
  case lo => rw [← stackAddr_eq, Memory.read_writeWord_lo, loByte_eq, add_two_eq, toNat_addrOf]
  case hi => rw [← stackAddr_add_one, Memory.read_writeWord_hi, hiByte_eq, add_two_eq, toNat_addrOf]
  case frame => exact Memory.read_writeWord_ne _ _ (stackAddr_eq _ ▸ hlo) (stackAddr_add_one _ ▸ hhi)

/-! ## The word at a stack pointer (R231) -/

/-- The word that stands in the stack page at `sp`, low byte first. -/
def Memory.stackWord (m : Memory) (sp : Byte) : Word := littleEndian (m.read (stackAddr sp)) (m.read (stackAddr sp + 1))

/-- Its two addresses as numbers: the high byte at `SP = 0xFF` stands above the stack page. -/
theorem Memory.stackWord_eq (m : Memory) (sp : Byte) :
    m.stackWord sp = littleEndian (m.read (addrOf (0x0100 + sp.toNat))) (m.read (addrOf (0x0101 + sp.toNat))) := by
  rw [Memory.stackWord, stackAddr_add_one, stackAddr_eq]

theorem Memory.stackWord_writeWord (m : Memory) (v : Word) (sp : Byte) :
    (m.writeWord v (stackAddr sp)).stackWord sp = v := by
  rw [Memory.stackWord, Memory.read_writeWord_lo, Memory.read_writeWord_hi, ← joinBytes_eq, joinBytes_hi_lo]

/-- The word of the next call overlaps this one's at no `SP`, though `SP` wraps (R232). -/
theorem Memory.stackWord_writeWord_spAdvance (m : Memory) (v : Word) (sp : Byte) :
    (m.writeWord v (stackAddr (spAdvance sp))).stackWord sp = m.stackWord sp := by
  have hsp := sp.isLt
  have hlo := toNat_stackAddr sp
  have hhi := toNat_stackAddr_add_one sp
  have hlo' := toNat_stackAddr (spAdvance sp)
  have hhi' := toNat_stackAddr_add_one (spAdvance sp)
  rw [toNat_spAdvance] at hlo' hhi'
  have apart : ∀ {addr b : Word}, addr.toNat ≠ b.toNat → addr ≠ b := ne_of_apply_ne BitVec.toNat
  rw [Memory.stackWord, Memory.read_writeWord_ne m v (apart (by omega)) (apart (by omega)),
    Memory.read_writeWord_ne m v (apart (by omega)) (apart (by omega)), Memory.stackWord]

/-- Settles O38: the second call's word is the last one written, and it does not overlap the first call's. -/
theorem successiveCallsStackUpward : Obligations.SuccessiveCallsStackUpward := by
  intro p q s t u hfirst hsecond
  rw [exec_jsr_eq] at hfirst hsecond
  cases hfirst
  cases hsecond
  refine ⟨rfl, ?sp, ?first, ?second⟩
  case sp =>
    rw [toNat_spAdvance, toNat_spAdvance]
    omega
  case first =>
    rw [← Memory.stackWord_eq, Memory.stackWord_writeWord_spAdvance, Memory.stackWord_writeWord]
  case second => rw [← toNat_spAdvance, ← Memory.stackWord_eq, Memory.stackWord_writeWord]

end Sys2Proof.Machine
end

section
/-! PROOFS. The obligation on exceptions (spec/60_exceptions.md): no state stops the machine. -/

namespace Sys2Proof.Machine

/-- Idle, spent, and a live budget before a known or an unknown opcode: each has a successor (spec/60_exceptions.md
R301). -/
theorem step_completes (s : State) : StepCompletes s := by
  cases hr : s.run with
  | idle => exact ⟨s, step_idle hr⟩
  | running remaining =>
    obtain hle | hpos := le_or_gt remaining 0
    · exact ⟨endCall s, step_spent hr hle⟩
    · have hready : s.Ready := (RunState.live_iff _).mpr ⟨remaining, hr, hpos⟩
      cases hi : decodeAt s with
      | none => exact ⟨_, step_ready_none hready hi⟩
      | some i =>
        obtain ⟨t, ht⟩ := exec_completes i s
        exact ⟨t, (step_ready_some hready hi).trans ht⟩

/-- Settles O55: an instruction answers a load or the call, and each kind of step above has its next state. -/
theorem everyStepHasOneSuccessor : Obligations.EveryStepHasOneSuccessor :=
  ⟨step_completes, exec_completes⟩

end Sys2Proof.Machine
end

section
/-! PROOFS. The obligations on reset and hazards (spec/70_reset_and_hazards.md): where the first opcode after reset is
fetched, and which bytes a step can change. -/

namespace Sys2Proof.Machine

/-! ## The first instruction after reset -/

/-- The instruction after reset is decoded at 0xFFFC itself, not where a word read there points (R401). -/
theorem decodeAt_hostReset (s : State) (image : Memory) (run : RunState) :
    decodeAt { hostReset s with mem := image, run := run } =
      decodeWindow (image.read 0xFFFC) (image.read 0xFFFD) (image.read 0xFFFE) := rfl

/-- Settles O2: reset keeps nothing but the log, and the ready machine decodes what stands at 0xFFFC. -/
theorem resetReadsNoVector : Obligations.ResetReadsNoVector := by
  refine ⟨fun s m => ⟨rfl, rfl⟩, fun s image remaining hpos => ?_⟩
  have hready : State.Ready { hostReset s with mem := image, run := .running remaining } := decide_eq_true hpos
  rw [← decodeAt_hostReset s image (.running remaining)]
  cases hi : decodeAt { hostReset s with mem := image, run := .running remaining } with
  | none => exact step_ready_none hready hi
  | some i => exact step_ready_some hready hi

/-! ## The bytes a step changes -/

/-- An instruction that changes a byte is JSR, and the byte is one of the two at the stack address (O40, R411). -/
theorem exec_changes_byte {i : Instr} {s t : State} {addr : Word} (h : exec i s = .next t)
    (hne : t.mem.read addr ≠ s.mem.read addr) :
    (∃ target, i = .jsr target) ∧ (addr = addrOf (0x0100 + s.sp.toNat) ∨ addr = addrOf (0x0101 + s.sp.toNat)) := by
  obtain ⟨-, -, -, hload, hcall⟩ := instructionsChangeOnlyWhatTheyName i s t h
  have hd : destination i = none := by
    by_contra hsome
    obtain ⟨-, hmem⟩ := hload hsome
    exact hne (hmem addr)
  obtain ⟨-, -, hframe⟩ := hcall hd
  refine ⟨destination_eq_none.mp hd, ?_⟩
  by_contra hother
  obtain ⟨hlo, hhi⟩ := not_or.mp hother
  exact hne (hframe addr hlo hhi)

/-- Settles O51: of the four things a step can do, only running an instruction changes a byte; a fetch reads the present
memory. -/
theorem cpuWritesOnlyTheStackBytes : Obligations.CpuWritesOnlyTheStackBytes := by
  refine ⟨fun s t addr h hne => ?_, fun s addr v => Memory.read_write_self s.mem addr v⟩
  obtain ⟨-, rfl⟩ | ⟨_, -, -, rfl⟩ | ⟨hready, i, hi, he⟩ | ⟨-, -, rfl⟩ := step_cases h
  · exact absurd rfl hne
  · exact absurd rfl hne
  · obtain ⟨⟨target, rfl⟩, hstack⟩ := exec_changes_byte he hne
    exact ⟨hready, decodeAt_jsr_iff.mp ⟨target, hi⟩, hstack⟩
  · exact absurd rfl hne

end Sys2Proof.Machine
end

section
/-! PROOFS. The obligation on the form of the memory image (spec/20_memory.md): what a step, an iteration of the loop and a
host write do to it. -/

namespace Sys2Proof.Machine

/-- A call writes one word, so it keeps the form (spec/43_subroutine_call.md R230). -/
theorem callTo_memoryCanonical {s : State} (target : Word) (h : s.MemoryCanonical) :
    (callTo target (s.fetched 3)).MemoryCanonical := Memory.writeWord_wf h _ _

/-- Of what a step can do, only the call writes memory. -/
theorem step_memoryCanonical {s t : State} (hs : s.MemoryCanonical) (h : step s = .next t) : t.MemoryCanonical := by
  obtain rfl | rfl | ⟨k, n, r, v, -, rfl⟩ | ⟨target, -, rfl⟩ | rfl := step_effect h
  · exact hs
  · exact hs
  · rwa [State.MemoryCanonical, loaded_mem]
  · exact callTo_memoryCanonical target hs
  · exact hs

/-- An iteration keeps the form under any table, since no row names a handler that writes more than the call. -/
theorem iterate_memoryCanonical (table : List Row) {s : State} (hs : s.MemoryCanonical) :
    (iterate table s).MemoryCanonical := by
  obtain ⟨k, n, r, v, h⟩ | ⟨target, h⟩ | h := iterate_cases table s <;> rw [h]
  · rwa [State.MemoryCanonical, loaded_mem]
  · exact callTo_memoryCanonical target hs
  · exact hs

/-- A host write keeps the form: the one that reaches memory is a byte write (spec/41_dispatch_execute.md R183). -/
theorem applyPreload_memoryCanonical (w : Preload) {s : State} (hs : s.MemoryCanonical) :
    (applyPreload w s).MemoryCanonical := by
  cases w with
  | mem addr v => exact Memory.write_wf hs addr v
  | reg r v => rwa [State.MemoryCanonical, applyPreload, State.setReg_mem]
  | pc _ | sp _ | flagC _ | flagZ _ | flagI _ | flagD _ | flagB _ | flagV _ | flagN _ => exact hs

/-- Settles O7: memory is written only by the call and by the host, byte by byte from the image held or from the empty
one, and a byte write keeps the form. -/
theorem everyStepKeepsMemoryCanonical : Obligations.EveryStepKeepsMemoryCanonical := by
  refine ⟨fun s t => step_memoryCanonical, fun table s t call reply hs h => ?_⟩
  obtain ⟨-, ⟨-, rfl⟩ | ⟨budget, -, rfl⟩ | ⟨-, rfl⟩ | ⟨w, -, rfl⟩ | ⟨cells, -, rfl⟩⟩ := hostCall_cases h
  · exact Memory.nil_wf
  · exact whileLoop_keeps (P := State.MemoryCanonical) table (fun _ => iterate_memoryCanonical table) budget hs
  · exact hs
  · exact applyPreload_memoryCanonical w hs
  · exact imageOf_wf cells

end Sys2Proof.Machine
end
